-- ==== Sys2Proof/Word.lean ====
section
/-! DEFINITION. The word type, the register file and the register-name table as types (spec 00_scope.md R6, R8, R9;
10_state.md R20, R23). -/

namespace Sys2Proof

/-- A 32-bit pattern, bit 0 least significant (`u32`, R8, R9). `BitVec.toInt` is the spec's `signed`, `BitVec.toNat`
its `unsigned`; `+` and `-` on it are the spec's `+32` and `-32`. -/
abbrev Word := BitVec 32

/-- The 16-bit immediate field as raw bits (R61, 90_conflicts.md C3). -/
abbrev Imm16 := BitVec 16

/-- A register index, 0 to 31 (R20, R67). -/
abbrev RegIdx := Fin 32

/-- The register file: 32 registers of 32 bits (R20). -/
abbrev RegFile := Vector Word 32

/-- A value of the parameter `REG_NAME`: one name for each register (00_scope.md R7, 10_state.md R23). -/
abbrev RegNames := Vector String 32

end Sys2Proof
end

