-- ==== Sys2Proof/Machine/Names.lean ====
section
/-! DEFINITION. The default value of the parameter `REG_NAME` (spec 10_state.md R23, 92_eei_decisions.md D3; log 3). -/

namespace Sys2Proof.Machine

/-- The default register-name table (R23): the source fixes only register 0. -/
def defaultRegName : RegNames :=
  #v["$zero", "$at", "$v0", "$v1", "$a0", "$a1", "$a2", "$a3",
     "$t0", "$t1", "$t2", "$t3", "$t4", "$t5", "$t6", "$t7",
     "$s0", "$s1", "$s2", "$s3", "$s4", "$s5", "$s6", "$s7",
     "$t8", "$t9", "$k0", "$k1", "$gp", "$sp", "$fp", "$ra"]

end Sys2Proof.Machine
end

