-- ==== Sys2Proof/Syntax.lean ====
section
/-! DEFINITION. The field record of a word, the thirteen instructions, and the closed enumeration of the decoder's
fifteen outcomes (spec 30_encoding.md R61, R69 to R73; 45_unrecognized.md R212). -/

namespace Sys2Proof

/-- The Instruction Fields record, extracted from every word whatever the instruction (R61, 40_datapath.md R105). -/
structure Fields where
  opcode : BitVec 6
  rs : RegIdx
  rt : RegIdx
  rd : RegIdx
  shamt : BitVec 5
  funct : BitVec 6
  imm : Imm16
  address : BitVec 26
deriving DecidableEq, Repr

/-- The thirteen recognised instructions, one constructor for each row of the opcode table (R2, R69, R70). An operand the
spec says is ignored (`shamt` of an R-type word, `rs` of `lui`; R65) is kept, so that an instruction is exactly the bits
of its word; no meaning reads it (log 10). -/
inductive Instr where
  /-- `add rd, rs, rt` (R150). -/
  | add (rd rs rt : RegIdx) (shamt : BitVec 5)
  /-- `sub rd, rs, rt` (R151). -/
  | sub (rd rs rt : RegIdx) (shamt : BitVec 5)
  /-- `and rd, rs, rt` (R152). -/
  | and (rd rs rt : RegIdx) (shamt : BitVec 5)
  /-- `or rd, rs, rt` (R153). -/
  | or (rd rs rt : RegIdx) (shamt : BitVec 5)
  /-- `slt rd, rs, rt` (R154). -/
  | slt (rd rs rt : RegIdx) (shamt : BitVec 5)
  /-- `beq rs, rt, imm` (R200). -/
  | beq (rs rt : RegIdx) (imm : Imm16)
  /-- `bne rs, rt, imm` (R201). -/
  | bne (rs rt : RegIdx) (imm : Imm16)
  /-- `addi rt, rs, imm` (R170). -/
  | addi (rt rs : RegIdx) (imm : Imm16)
  /-- `andi rt, rs, imm` (R171). -/
  | andi (rt rs : RegIdx) (imm : Imm16)
  /-- `ori rt, rs, imm` (R172). -/
  | ori (rt rs : RegIdx) (imm : Imm16)
  /-- `lui rt, imm`; `rs` is the ignored field (R173, R65). -/
  | lui (rt rs : RegIdx) (imm : Imm16)
  /-- `lw rt, imm(rs)` (R190). -/
  | lw (rt rs : RegIdx) (imm : Imm16)
  /-- `sw rt, imm(rs)` (R191). -/
  | sw (rt rs : RegIdx) (imm : Imm16)
deriving DecidableEq, Repr

/-- The fifteen outcomes of the decoder (R73): the thirteen instructions and the two unrecognised classes, each class an
explicit constructor that holds the one field its rule reads (R72, R210, R211, R212; log 9). -/
inductive Decoded where
  /-- A word of the opcode table. -/
  | instr (i : Instr)
  /-- `opcode` = 0 and a `funct` outside the secondary map (R210). -/
  | unknownFunct (funct : BitVec 6)
  /-- An `opcode` outside the primary map (R211). -/
  | unknownOpcode (opcode : BitVec 6)
deriving DecidableEq, Repr

end Sys2Proof
end

