-- ==== Sys2Proof/Machine/State.lean ====
section
/-! DEFINITION. The state of the machine, its reasons to stop, and reset (spec 10_state.md R20, R32, R33;
70_reset_and_hazards.md R250). -/

namespace Sys2Proof.Machine

/-- One line of text the host has still to supply, with the host's choice of `dump_en` for it (60_exceptions.md R225,
R230; 40_datapath.md R104). -/
structure HostLine where
  text : String
  dumpEn : Bool
deriving DecidableEq, Repr

/-- One item of the console text of a run (60_exceptions.md R227, R229). -/
inductive ConsoleItem where
  /-- A line the block emitted, without terminator (00_scope.md R12). -/
  | line (text : String)
  /-- The host's inline report of a line it skipped (`WrongBitCount`, R227); its wording is open (log 7). -/
  | skipReport (rejected : String)
deriving DecidableEq, Repr

/-- The state. `x` is the block's whole architectural state (10_state.md R33); the other fields are the model's own and
hold, as plain data, the parameter and the input and output of the steps (log 1, 2, 3). -/
structure State where
  /-- The register file (R20). -/
  x : RegFile
  /-- The parameter `REG_NAME` (00_scope.md R7); no step changes it (log 3). -/
  regName : RegNames
  /-- The lines the host has still to supply, first one first (R31; log 1). -/
  host : List HostLine
  /-- What has been emitted since reset, first item first (00_scope.md R12; log 2). -/
  console : List ConsoleItem
deriving DecidableEq, Repr

/-- Why a run stops. The block itself never stops one (60_exceptions.md R220, R229). -/
inductive Fault where
  /-- `InvalidCharacter` (R226): raised by `step` when the host's next line holds a character that is neither `0`, `1`
  nor whitespace; the run ends and the registers keep what the last completed step left. Safe: the spec ends the run
  here (log 5). -/
  | invalidCharacter (rejected : String)
deriving DecidableEq, Repr

/-- Why an instruction has no meaning in the model. No instruction of this hardware is refused. -/
inductive Refusal where
  /-- Raised only by an arm of `exec` whose instruction has no meaning yet; there is none. Safe: the model stops. -/
  | notModelled (mnemonic : String)
deriving DecidableEq, Repr

/-- The machine right after power-on reset: every register 0 (R32, R250, R251), the default names (R23), nothing supplied
and nothing emitted yet. -/
def State.reset : State where
  x := Vector.replicate 32 0#32
  regName := defaultRegName
  host := []
  console := []

end Sys2Proof.Machine
end

