-- ==== Sys2Proof/Machine/Flags.lean ====
section
/-! DEFINITION. The block has no flags, condition codes or predicates (spec 10_state.md R27, 40_datapath.md R109). The one
condition it computes is the branch comparator's, which chooses the annotation of a decoded line and is stored nowhere
(R113). -/

namespace Sys2Proof.Machine

/-- What the branch comparator is asked for (R112, R113). -/
inductive Cmp where
  | eq
  | ne
deriving DecidableEq, Repr

/-- Whether the comparator reports taken: equality, or its negation, of the two 32-bit patterns (R113). -/
def taken (cmp : Cmp) (a b : Word) : Bool :=
  match cmp with
  | .eq => a == b
  | .ne => a != b

end Sys2Proof.Machine
end

