-- ==== Sys2Proof/WellFormed.lean ====
section
/-! DEFINITION. Which terms of the syntax stand for a word (spec 30_encoding.md R65, R69, R70, R72). The operand types
carry every bound of an instruction (a register index is below 32, an immediate has 16 bits), so the checks that can fail
are those of the two unrecognised outcomes and of the register-name parameter. -/

namespace Sys2Proof

/-- The functs of the secondary map (R70). -/
def recognisedFuncts : List (BitVec 6) := [0x20#6, 0x22#6, 0x24#6, 0x25#6, 0x2A#6]

/-- The opcodes of the primary map (R69); 0x00 selects the secondary map. -/
def recognisedOpcodes : List (BitVec 6) :=
  [0x00#6, 0x04#6, 0x05#6, 0x08#6, 0x0C#6, 0x0D#6, 0x0F#6, 0x23#6, 0x2B#6]

/-- Every operand value of every instruction is encodable (R65: no field is required to be zero; R67: each of the 32
indices names a register), and the types hold no other value. -/
def Instr.wellFormed : Instr → Bool
  | .add _ _ _ _ | .sub _ _ _ _ | .and _ _ _ _ | .or _ _ _ _ | .slt _ _ _ _ => true
  | .beq _ _ _ | .bne _ _ _ | .addi _ _ _ | .andi _ _ _ | .ori _ _ _ => true
  | .lui _ _ _ | .lw _ _ _ | .sw _ _ _ => true

/-- An unrecognised outcome is well formed when its selector is outside its map (R72). -/
def Decoded.wellFormed : Decoded → Bool
  | .instr i => i.wellFormed
  | .unknownFunct f => !recognisedFuncts.contains f
  | .unknownOpcode op => !recognisedOpcodes.contains op

/-- The one constraint on the parameter `REG_NAME`: `REG_NAME(0) = "$zero"` (00_scope.md R7, 10_state.md R23). -/
def regNamesWellFormed (names : RegNames) : Bool := names[0] == "$zero"

end Sys2Proof
end

