-- ==== Sys2Proof/Decode.lean ====
section
/-! DEFINITION. The bitfield extractor, the two-level decoder, the opcode table as data, and the encoder (spec
30_encoding.md R61 to R73, 40_datapath.md R105, R106, R140). -/

namespace Sys2Proof

/-! ## The extractor -/

/-- A 5-bit field read as a register index (R61, R67). -/
def regOf (b : BitVec 5) : RegIdx := ⟨b.toNat, b.isLt⟩

/-- A register index as the 5 bits of its field. -/
def regBits (r : RegIdx) : BitVec 5 := BitVec.ofNat 5 r.val

/-- The bitfield extractor: every field at its fixed position, from every word (R61, R105). -/
def extract (w : Word) : Fields where
  opcode := w.extractLsb' 26 6
  rs := regOf (w.extractLsb' 21 5)
  rt := regOf (w.extractLsb' 16 5)
  rd := regOf (w.extractLsb' 11 5)
  shamt := w.extractLsb' 6 5
  funct := w.extractLsb' 0 6
  imm := w.extractLsb' 0 16
  address := w.extractLsb' 0 26

/-! ## The two-level dispatch -/

/-- The second level, taken only when `opcode` is 0 (R68, R70). -/
def decodeFunct (f : Fields) : Decoded :=
  if f.funct = 0x20#6 then .instr (.add f.rd f.rs f.rt f.shamt)
  else if f.funct = 0x22#6 then .instr (.sub f.rd f.rs f.rt f.shamt)
  else if f.funct = 0x24#6 then .instr (.and f.rd f.rs f.rt f.shamt)
  else if f.funct = 0x25#6 then .instr (.or f.rd f.rs f.rt f.shamt)
  else if f.funct = 0x2A#6 then .instr (.slt f.rd f.rs f.rt f.shamt)
  else .unknownFunct f.funct

/-- The first level for a non-zero opcode (R68, R69). -/
def decodeOpcode (f : Fields) : Decoded :=
  if f.opcode = 0x08#6 then .instr (.addi f.rt f.rs f.imm)
  else if f.opcode = 0x0C#6 then .instr (.andi f.rt f.rs f.imm)
  else if f.opcode = 0x0D#6 then .instr (.ori f.rt f.rs f.imm)
  else if f.opcode = 0x0F#6 then .instr (.lui f.rt f.rs f.imm)
  else if f.opcode = 0x23#6 then .instr (.lw f.rt f.rs f.imm)
  else if f.opcode = 0x2B#6 then .instr (.sw f.rt f.rs f.imm)
  else if f.opcode = 0x04#6 then .instr (.beq f.rs f.rt f.imm)
  else if f.opcode = 0x05#6 then .instr (.bne f.rs f.rt f.imm)
  else .unknownOpcode f.opcode

/-- The instruction decoder on a field record (R68, R140). -/
def decodeFields (f : Fields) : Decoded :=
  if f.opcode = 0x00#6 then decodeFunct f else decodeOpcode f

/-- The decoder, total on all `2^32` words (R73). -/
def decode (w : Word) : Decoded := decodeFields (extract w)

/-! ## The opcode table -/

/-- One row of the opcode maps: the word is this instruction when its masked bits are the match value. -/
structure OpRow where
  mnemonic : String
  mask : Word
  mtch : Word
deriving DecidableEq, Repr

/-- The masks and matches of the secondary map (R70) and the primary map (R69). -/
def opcodeTable : List OpRow :=
  [⟨"add", 0xFC00003F#32, 0x00000020#32⟩, ⟨"sub", 0xFC00003F#32, 0x00000022#32⟩,
   ⟨"and", 0xFC00003F#32, 0x00000024#32⟩, ⟨"or", 0xFC00003F#32, 0x00000025#32⟩,
   ⟨"slt", 0xFC00003F#32, 0x0000002A#32⟩, ⟨"beq", 0xFC000000#32, 0x10000000#32⟩,
   ⟨"bne", 0xFC000000#32, 0x14000000#32⟩, ⟨"addi", 0xFC000000#32, 0x20000000#32⟩,
   ⟨"andi", 0xFC000000#32, 0x30000000#32⟩, ⟨"ori", 0xFC000000#32, 0x34000000#32⟩,
   ⟨"lui", 0xFC000000#32, 0x3C000000#32⟩, ⟨"lw", 0xFC000000#32, 0x8C000000#32⟩,
   ⟨"sw", 0xFC000000#32, 0xAC000000#32⟩]

/-- Whether a word's masked bits are the row's match value. -/
def OpRow.covers (r : OpRow) (w : Word) : Bool := w &&& r.mask == r.mtch

/-- The mnemonic of an instruction, as the opcode table spells it. -/
def Instr.mnemonic : Instr → String
  | .add _ _ _ _ => "add"
  | .sub _ _ _ _ => "sub"
  | .and _ _ _ _ => "and"
  | .or _ _ _ _ => "or"
  | .slt _ _ _ _ => "slt"
  | .beq _ _ _ => "beq"
  | .bne _ _ _ => "bne"
  | .addi _ _ _ => "addi"
  | .andi _ _ _ => "andi"
  | .ori _ _ _ => "ori"
  | .lui _ _ _ => "lui"
  | .lw _ _ _ => "lw"
  | .sw _ _ _ => "sw"

/-- The mnemonic of a decoding outcome; none for an unrecognised word. -/
def Decoded.mnemonic? : Decoded → Option String
  | .instr i => some i.mnemonic
  | .unknownFunct _ | .unknownOpcode _ => none

/-! ## The encoder -/

/-- A field placed with its low bit at bit `lo` of the word. -/
def place (n lo : Nat) (field : BitVec n) : Word := field.setWidth 32 <<< lo

/-- An R-type word (R62): opcode 0 in bits 31..26, then rs, rt, rd, shamt and funct down to bit 0. -/
def encodeR (rs rt rd : RegIdx) (shamt : BitVec 5) (funct : BitVec 6) : Word :=
  place 5 21 (regBits rs) ||| place 5 16 (regBits rt) ||| place 5 11 (regBits rd) ||| place 5 6 shamt |||
    place 6 0 funct

/-- An I-type word (R63): opcode in bits 31..26, then rs, rt and the immediate down to bit 0. -/
def encodeI (opcode : BitVec 6) (rs rt : RegIdx) (imm : Imm16) : Word :=
  place 6 26 opcode ||| place 5 21 (regBits rs) ||| place 5 16 (regBits rt) ||| place 16 0 imm

/-- The word of an instruction, from the patterns of R71. -/
def encode : Instr → Word
  | .add rd rs rt shamt => encodeR rs rt rd shamt 0x20#6
  | .sub rd rs rt shamt => encodeR rs rt rd shamt 0x22#6
  | .and rd rs rt shamt => encodeR rs rt rd shamt 0x24#6
  | .or rd rs rt shamt => encodeR rs rt rd shamt 0x25#6
  | .slt rd rs rt shamt => encodeR rs rt rd shamt 0x2A#6
  | .beq rs rt imm => encodeI 0x04#6 rs rt imm
  | .bne rs rt imm => encodeI 0x05#6 rs rt imm
  | .addi rt rs imm => encodeI 0x08#6 rs rt imm
  | .andi rt rs imm => encodeI 0x0C#6 rs rt imm
  | .ori rt rs imm => encodeI 0x0D#6 rs rt imm
  | .lui rt rs imm => encodeI 0x0F#6 rs rt imm
  | .lw rt rs imm => encodeI 0x23#6 rs rt imm
  | .sw rt rs imm => encodeI 0x2B#6 rs rt imm

/-- A word of each outcome; an unrecognised one with its unread fields zero (R72). -/
def Decoded.encode : Decoded → Word
  | .instr i => Sys2Proof.encode i
  | .unknownFunct f => encodeR 0 0 0 0#5 f
  | .unknownOpcode op => encodeI op 0 0 0#16

/-! ## The host's reading of a table word -/

/-- The instruction the decoder reads from the low `nbits` bits of `w`, none for an unrecognised word. -/
def decodeTableWord (nbits w : Nat) : Option Instr :=
  match decode (BitVec.ofNat 32 (w % 2 ^ nbits)) with
  | .instr i => some i
  | .unknownFunct _ => none
  | .unknownOpcode _ => none

end Sys2Proof
end

