-- ==== Sys2Proof/Machine/Operands.lean ====
section
/-! DEFINITION. The immediate extender, the ALU and the register-file ports (spec 00_scope.md R10; 30_encoding.md R66;
40_datapath.md R107 to R111). -/

namespace Sys2Proof.Machine

/-- The extender's three modes (R107). -/
inductive ExtMode where
  | sext
  | zext
  | upper
deriving DecidableEq, Repr

/-- The ALU's five operations (R108). -/
inductive AluOp where
  | add
  | sub
  | and
  | or
  | slt
deriving DecidableEq, Repr

/-- `sext_32`: the sign bit replicated into the upper half (R10). -/
def sext32 (imm : Imm16) : Word := imm.signExtend 32

/-- `zext_32`: zeros in the upper half (R10). -/
def zext32 (imm : Imm16) : Word := imm.zeroExtend 32

/-- The immediate extender (R66, R107). -/
def ext (mode : ExtMode) (imm : Imm16) : Word :=
  match mode with
  | .sext => sext32 imm
  | .zext => zext32 imm
  | .upper => zext32 imm <<< 16

/-- The ALU: no flag output, no overflow detection (R108, R109). -/
def alu (op : AluOp) (a b : Word) : Word :=
  match op with
  | .add => a + b
  | .sub => a - b
  | .and => a &&& b
  | .or => a ||| b
  | .slt => if a.toInt < b.toInt then 1#32 else 0#32

/-- A read port of the register file (R110). -/
def readPort (x : RegFile) (a : RegIdx) : Word := x[a]

/-- The write port: every index is writable, register 0 like any other (R110, R111, R22). -/
def writePort (x : RegFile) (we : Bool) (wa : RegIdx) (wd : Word) : RegFile :=
  if we then x.set wa wd else x

end Sys2Proof.Machine
end

