-- ==== Sys2Proof/Machine/Format.lean ====
section
/-! DEFINITION. The disassembly formatter (spec 30_encoding.md R74, R75; 40_datapath.md R130 to R136). The spellings the
source does not give are the spec's decisions D5 to D13 (log 8). -/

namespace Sys2Proof.Machine

/-! ## Numbers and words -/

/-- One bit as a character. -/
def bitChar (b : Bool) : Char := if b then '1' else '0'

/-- The group of bits `4g+3` down to `4g` as characters, most significant first. -/
def nibbleChars (w : Word) (g : Nat) : List Char :=
  [bitChar (w.getLsbD (4 * g + 3)), bitChar (w.getLsbD (4 * g + 2)), bitChar (w.getLsbD (4 * g + 1)),
   bitChar (w.getLsbD (4 * g))]

/-- The word line's characters: eight groups of four, most significant first, one space between (R130). -/
def grp4Chars (w : Word) : List Char :=
  List.intercalate [' '] ([7, 6, 5, 4, 3, 2, 1, 0].map (nibbleChars w))

/-- `grp4`, the word line (R130). -/
def grp4 (w : Word) : String := String.ofList (grp4Chars w)

/-- `dec`, the signed decimal spelling (R131). -/
def dec (n : Int) : String :=
  if n < 0 then "-" ++ Nat.repr n.natAbs else Nat.repr n.natAbs

/-- An upper-case hexadecimal digit (R132, R133). -/
def hexDigit (d : Nat) : Char :=
  ['0', '1', '2', '3', '4', '5', '6', '7', '8', '9', 'A', 'B', 'C', 'D', 'E', 'F'].getD d '0'

/-- The `k` low hexadecimal digits of `v`, most significant first, zero-padded. -/
def hexDigits : Nat → Nat → List Char
  | 0, _ => []
  | k + 1, v => hexDigits k (v / 16) ++ [hexDigit (v % 16)]

/-- `hex4` (R132). -/
def hex4 (imm : Imm16) : String := String.ofList (hexDigits 4 imm.toNat)

/-- `hex2` (R133). -/
def hex2 (v : BitVec 6) : String := String.ofList (hexDigits 2 v.toNat)

/-- `name` (R134). -/
def name (names : RegNames) (i : RegIdx) : String := names[i]

/-! ## Decoded lines -/

/-- `<mn> <rd>, <rs>, <rt>` (R74). -/
def lineR (names : RegNames) (mn : String) (rd rs rt : RegIdx) : String :=
  mn ++ " " ++ name names rd ++ ", " ++ name names rs ++ ", " ++ name names rt

/-- `<mn> <rt>, <rs>, <dec(simm)>`, the line of `addi` (R74). -/
def lineSigned (names : RegNames) (mn : String) (rt rs : RegIdx) (imm : Imm16) : String :=
  mn ++ " " ++ name names rt ++ ", " ++ name names rs ++ ", " ++ dec (ext .sext imm).toInt

/-- `<mn> <rt>, <rs>, 0x<hex4(imm)>`, the line of `andi` and `ori` (R74). -/
def lineHex (names : RegNames) (mn : String) (rt rs : RegIdx) (imm : Imm16) : String :=
  mn ++ " " ++ name names rt ++ ", " ++ name names rs ++ ", 0x" ++ hex4 imm

/-- `<mn> <rt>, 0x<hex4(imm)>`, the line of `lui`; the ignored `rs` is not printed (R74). -/
def lineUpper (names : RegNames) (mn : String) (rt : RegIdx) (imm : Imm16) : String :=
  mn ++ " " ++ name names rt ++ ", 0x" ++ hex4 imm

/-- `<mn> <rt>, <dec(simm)>(<rs>)`, the line of `lw` and `sw` (R74). -/
def lineMem (names : RegNames) (mn : String) (rt rs : RegIdx) (imm : Imm16) : String :=
  mn ++ " " ++ name names rt ++ ", " ++ dec (ext .sext imm).toInt ++ "(" ++ name names rs ++ ")"

/-- The annotation of a branch line (R74, 44_branch.md). -/
def annotation (taken : Bool) : String := if taken then " (branch taken)" else " (branch not taken)"

/-- `<mn> <rs>, <rt>, <dec(simm)>` and the annotation, the line of `beq` and `bne` (R74). -/
def lineBranch (names : RegNames) (mn : String) (rs rt : RegIdx) (imm : Imm16) (taken : Bool) : String :=
  mn ++ " " ++ name names rs ++ ", " ++ name names rt ++ ", " ++ dec (ext .sext imm).toInt ++ annotation taken

/-- The line of an unknown funct (R74, R210). -/
def lineUnknownFunct (funct : BitVec 6) : String := "Unknown R-type funct: 0x" ++ hex2 funct

/-- The line of an unknown opcode (R74, R211). -/
def lineUnknownOpcode (opcode : BitVec 6) : String := "Unknown opcode: 0x" ++ hex2 opcode

/-- The whole grammar of decoded lines, by outcome (R74). `taken` is the comparator's report, read by the branches. -/
def decodedLine (names : RegNames) (taken : Bool) : Decoded → String
  | .instr (.add rd rs rt _) => lineR names "add" rd rs rt
  | .instr (.sub rd rs rt _) => lineR names "sub" rd rs rt
  | .instr (.and rd rs rt _) => lineR names "and" rd rs rt
  | .instr (.or rd rs rt _) => lineR names "or" rd rs rt
  | .instr (.slt rd rs rt _) => lineR names "slt" rd rs rt
  | .instr (.beq rs rt imm) => lineBranch names "beq" rs rt imm taken
  | .instr (.bne rs rt imm) => lineBranch names "bne" rs rt imm taken
  | .instr (.addi rt rs imm) => lineSigned names "addi" rt rs imm
  | .instr (.andi rt rs imm) => lineHex names "andi" rt rs imm
  | .instr (.ori rt rs imm) => lineHex names "ori" rt rs imm
  | .instr (.lui rt _ imm) => lineUpper names "lui" rt imm
  | .instr (.lw rt rs imm) => lineMem names "lw" rt rs imm
  | .instr (.sw rt rs imm) => lineMem names "sw" rt rs imm
  | .unknownFunct f => lineUnknownFunct f
  | .unknownOpcode op => lineUnknownOpcode op

/-! ## The register dump -/

/-- Register `4r+k`, the `k`-th of dump line `r` (R136). -/
def dumpIdx (r : Fin 8) (k : Fin 4) : RegIdx := ⟨4 * r.val + k.val, by omega⟩

/-- `<name> = <value>` for one register (R136). -/
def dumpPair (names : RegNames) (x : RegFile) (i : RegIdx) : String :=
  name names i ++ " = " ++ dec (x[i]).toInt

/-- Dump line `r`: four pairs joined by tabs (R136). -/
def dumpLine (names : RegNames) (x : RegFile) (r : Fin 8) : String :=
  dumpPair names x (dumpIdx r 0) ++ "\t" ++ dumpPair names x (dumpIdx r 1) ++ "\t" ++
    dumpPair names x (dumpIdx r 2) ++ "\t" ++ dumpPair names x (dumpIdx r 3)

/-- `dump`: the eight lines of the register dump (R136). -/
def dump (names : RegNames) (x : RegFile) : List String :=
  [0, 1, 2, 3, 4, 5, 6, 7].map (dumpLine names x)

end Sys2Proof.Machine
end

