-- ==== Sys2Proof/Machine/Ops.lean ====
section
/-! DEFINITION. The named operations over the state, and the shapes of instruction the meanings share (spec 00_scope.md
R11, R12; 40_datapath.md R101, R110). The block takes no exception and returns from none (60_exceptions.md R220, R223), so
there is no such operation here; the soft decode outcome is `reportOnly`. -/

namespace Sys2Proof.Machine

/-- What every meaning answers. -/
abbrev Result := Host.Outcome State Fault Refusal

/-- `x[i]`: register `i` as the previous step left it (R11, R101). -/
def State.reg (s : State) (i : RegIdx) : Word := readPort s.x i

/-- `x[i] <- v` through the write port (R11, R110). -/
def State.setReg (s : State) (i : RegIdx) (v : Word) : State := { s with x := writePort s.x true i v }

/-- `out <- out ++ [line]` (R12). -/
def State.emit (s : State) (line : String) : State := { s with console := s.console ++ [.line line] }

/-- Emits several lines in order (R12, R136). -/
def State.emitAll (s : State) (lines : List String) : State :=
  { s with console := s.console ++ lines.map .line }

/-- An instruction that writes one register and emits its line: `(x with x[dst] = v, line)` (R101, R140). -/
def writeAndReport (dst : RegIdx) (v : Word) (line : String) (s : State) : Result :=
  .next ((s.setReg dst v).emit line)

/-- An instruction or unrecognised word that only emits its line: `(x, line)` (R140, R212). -/
def reportOnly (line : String) (s : State) : Result := .next (s.emit line)

/-- The R-type template: ALU on `x[rs]` and `x[rt]` into `x[rd]` (41_rtype.md, R109). -/
def rType (mn : String) (op : AluOp) (rd rs rt : RegIdx) (s : State) : Result :=
  writeAndReport rd (alu op (s.reg rs) (s.reg rt)) (lineR s.regName mn rd rs rt) s

/-- The logical I-type template: ALU on `x[rs]` and the zero-extended immediate into `x[rt]` (R171, R172). -/
def iTypeLogic (mn : String) (op : AluOp) (rt rs : RegIdx) (imm : Imm16) (s : State) : Result :=
  writeAndReport rt (alu op (s.reg rs) (ext .zext imm)) (lineHex s.regName mn rt rs imm) s

/-- The load and store template: decode and print only (43_loadstore.md). -/
def printOnly (mn : String) (rt rs : RegIdx) (imm : Imm16) (s : State) : Result :=
  reportOnly (lineMem s.regName mn rt rs imm) s

/-- The branch template: compare, report, change nothing (44_branch.md). -/
def branchReport (mn : String) (cmp : Cmp) (rs rt : RegIdx) (imm : Imm16) (s : State) : Result :=
  reportOnly (lineBranch s.regName mn rs rt imm (taken cmp (s.reg rs) (s.reg rt))) s

end Sys2Proof.Machine
end

