-- ==== Sys2Proof/Machine/Branch.lean ====
section
/-! DEFINITION. Conditional branches, report only (spec 44_branch.md R200 to R202). -/

namespace Sys2Proof.Machine

/-- `beq` (R200). -/
def execBeq (rs rt : RegIdx) (imm : Imm16) (s : State) : Result := branchReport "beq" .eq rs rt imm s

/-- `bne` (R201). -/
def execBne (rs rt : RegIdx) (imm : Imm16) (s : State) : Result := branchReport "bne" .ne rs rt imm s

end Sys2Proof.Machine
end

