-- ==== Sys2Proof/Machine/IType.lean ====
section
/-! DEFINITION. I-type arithmetic and logic (spec 42_itype_alu.md R170 to R173). -/

namespace Sys2Proof.Machine

/-- `addi` (R170). -/
def execAddi (rt rs : RegIdx) (imm : Imm16) (s : State) : Result :=
  writeAndReport rt (alu .add (s.reg rs) (ext .sext imm)) (lineSigned s.regName "addi" rt rs imm) s

/-- `andi` (R171). -/
def execAndi (rt rs : RegIdx) (imm : Imm16) (s : State) : Result := iTypeLogic "andi" .and rt rs imm s

/-- `ori` (R172). -/
def execOri (rt rs : RegIdx) (imm : Imm16) (s : State) : Result := iTypeLogic "ori" .or rt rs imm s

/-- `lui` (R173): the extender's output, no ALU, no register read (R109). -/
def execLui (rt : RegIdx) (imm : Imm16) (s : State) : Result :=
  writeAndReport rt (ext .upper imm) (lineUpper s.regName "lui" rt imm) s

end Sys2Proof.Machine
end

