-- ==== Sys2Proof/Machine/LoadStore.lean ====
section
/-! DEFINITION. Loads and stores, decode and print only (spec 43_loadstore.md R190, R191; 20_memory.md R40). -/

namespace Sys2Proof.Machine

/-- `lw` (R190). -/
def execLw (rt rs : RegIdx) (imm : Imm16) (s : State) : Result := printOnly "lw" rt rs imm s

/-- `sw` (R191). -/
def execSw (rt rs : RegIdx) (imm : Imm16) (s : State) : Result := printOnly "sw" rt rs imm s

end Sys2Proof.Machine
end

