-- ==== Sys2Proof/Machine/RType.lean ====
section
/-! DEFINITION. R-type arithmetic and logic (spec 41_rtype.md R150 to R154). -/

namespace Sys2Proof.Machine

/-- `add` (R150). -/
def execAdd (rd rs rt : RegIdx) (s : State) : Result := rType "add" .add rd rs rt s

/-- `sub` (R151). -/
def execSub (rd rs rt : RegIdx) (s : State) : Result := rType "sub" .sub rd rs rt s

/-- `and` (R152). -/
def execAnd (rd rs rt : RegIdx) (s : State) : Result := rType "and" .and rd rs rt s

/-- `or` (R153). -/
def execOr (rd rs rt : RegIdx) (s : State) : Result := rType "or" .or rd rs rt s

/-- `slt` (R154). -/
def execSlt (rd rs rt : RegIdx) (s : State) : Result := rType "slt" .slt rd rs rt s

end Sys2Proof.Machine
end

