-- ==== Sys2Proof/Config.lean ====
section
/-! DEFINITION. What the spec leaves to the host program as open parameters (92_eei_decisions.md D19,
93_implementation_defined.md I9): uninterpreted, so that no claim can rest on a value. The parameter `REG_NAME` is plain
data in State (log 3) and `dump_en` a bit beside each host line (log 1). -/

namespace Sys2Proof

/-- `HOST_SKIP_MSG`: what the host prints for a line it skips, a free function of that line (log 7). -/
opaque Config.hostSkipMsg : String → String

/-- `HOST_FATAL_MSG`: what the host prints when a line ends the run, a free function of that line (log 7). -/
opaque Config.hostFatalMsg : String → String

/-- One less than `HOST_FATAL_STATUS`, free (log 7). -/
opaque Config.hostFatalStatusPred : Nat

/-- `HOST_FATAL_STATUS`: any value but zero (60_exceptions.md R226: "a non-zero completion status"). -/
def Config.hostFatalStatus : Nat := Config.hostFatalStatusPred + 1

end Sys2Proof
end

