-- ==== Sys2Proof/Machine/HostContract.lean ====
section
/-! DEFINITION. The host's contract: how a line of text becomes a word, a skipped line or the end of the run (spec
60_exceptions.md R221, R222, R225 to R228), and how emitted text is printed (40_datapath.md R135). -/

namespace Sys2Proof.Machine

/-- What the host makes of one line (R221). -/
inductive Verdict where
  /-- The line is a well-formed word, which reaches the block (R225). -/
  | word (w : Word)
  /-- Skippable: not exactly 32 binary digits (R227). -/
  | wrongBitCount
  /-- Fatal: a character that is neither `0`, `1` nor whitespace (R226). -/
  | invalidCharacter
deriving DecidableEq, Repr

/-- ASCII space, horizontal tab, line feed, vertical tab, form feed and carriage return (R225, D19). -/
def isSpace (c : Char) : Bool := [32, 9, 10, 11, 12, 13].contains c.toNat

/-- The characters `0` and `1`. -/
def isBit (c : Char) : Bool := c == '0' || c == '1'

/-- Binary digits read left to right, the leftmost most significant (R225). -/
def bitsToNat (cs : List Char) : Nat :=
  cs.foldl (fun v c => 2 * v + (if c == '1' then 1 else 0)) 0

/-- The checks on a line's characters in the order of R222: `InvalidCharacter`, then `WrongBitCount`, then the word. -/
def classifyChars (cs : List Char) : Verdict :=
  if cs.all (fun c => isBit c || isSpace c) then
    let digits := cs.filter (fun c => !isSpace c)
    if digits.length = 32 then .word (BitVec.ofNat 32 (bitsToNat digits)) else .wrongBitCount
  else .invalidCharacter

/-- What the host makes of a line of text (R222, R225 to R227). -/
def classify (text : String) : Verdict := classifyChars text.toList

/-- The signals the host drives at the block's interface for the next step: `instr` and `dump_en`, with `instr_valid`
asserted exactly when a word is presented (R104). -/
def State.presented (s : State) : Option (Word × Bool) :=
  match s.host with
  | [] => none
  | l :: _ =>
    match classify l.text with
    | .word w => some (w, l.dumpEn)
    | .wrongBitCount => none
    | .invalidCharacter => none

/-- What a console item prints as: a line of the block ends in one newline (R135); the wording of a skip report is open
(D19). -/
def ConsoleItem.printed : ConsoleItem → String
  | .line text => text ++ "\n"
  | .skipReport rejected => Config.hostSkipMsg rejected

/-- The text of a console as printed (R135). -/
def printedText (items : List ConsoleItem) : String := String.join (items.map ConsoleItem.printed)

/-- The lines the block emitted, in order: the stream `text_out` (R104, R12). -/
def State.textOut (s : State) : List String :=
  s.console.filterMap fun item =>
    match item with
    | .line text => some text
    | .skipReport _ => none

/-- The error message with which a run ends (R226, D19). -/
def Fault.message : Fault → String
  | .invalidCharacter rejected => Config.hostFatalMsg rejected

/-- The completion status with which a run ends (R226, D19). -/
def Fault.status : Fault → Nat
  | .invalidCharacter _ => Config.hostFatalStatus

end Sys2Proof.Machine
end

