-- ==== Sys2Proof/Machine/Unrecognized.lean ====
section
/-! DEFINITION. Unrecognised words: an ordinary line, no register change, the next word follows (spec 45_unrecognized.md
R210 to R212). -/

namespace Sys2Proof.Machine

/-- Unknown R-type funct (R210). -/
def execUnknownFunct (funct : BitVec 6) (s : State) : Result := reportOnly (lineUnknownFunct funct) s

/-- Unknown opcode (R211). -/
def execUnknownOpcode (opcode : BitVec 6) (s : State) : Result := reportOnly (lineUnknownOpcode opcode) s

end Sys2Proof.Machine
end

