-- ==== Sys2Proof/Machine/Block.lean ====
section
/-! DEFINITION. The block's step on one word, and the host's handing of one line to it (spec 40_datapath.md R100, R101,
R140; 60_exceptions.md R222, R225 to R227, R237). -/

namespace Sys2Proof.Machine

/-- `execute`: the rule of the decoded outcome, one of fifteen (R140). -/
def execute (d : Decoded) (s : State) : Result :=
  match d with
  | .instr i => exec i s
  | .unknownFunct f => execUnknownFunct f s
  | .unknownOpcode op => execUnknownOpcode op s

/-- Part (4) of a step: the dump of the register file the step left, if the host asked for it (R100, R136). -/
def withDump (dumpEn : Bool) (s : State) : State :=
  if dumpEn then s.emitAll (dump s.regName s.x) else s

/-- Runs part (4) after the decoded outcome. -/
def andDump (dumpEn : Bool) : Result → Result
  | .next t => .next (withDump dumpEn t)
  | .fault f => .fault f
  | .refused r => .refused r

/-- One step of the block: the word line, the decoded outcome, the optional dump (R100). -/
def stepWord (w : Word) (dumpEn : Bool) (s : State) : Result :=
  andDump dumpEn (execute (decode w) (s.emit (grp4 w)))

/-- The host's handling of one line, already taken off the stream `s` holds: a word reaches the block, a line of the wrong
length is reported and skipped, an invalid character ends the run (R222, R225 to R227). -/
def stepLine (l : HostLine) (s : State) : Result :=
  match classify l.text with
  | .word w => stepWord w l.dumpEn s
  | .wrongBitCount => .next { s with console := s.console ++ [.skipReport l.text] }
  | .invalidCharacter => .fault (.invalidCharacter l.text)

/-- One step of the machine: the next line of the host; with none the block is idle and holds its registers (R31, R237;
log 4). -/
def stepHost (s : State) : Result :=
  match s.host with
  | [] => .next s
  | l :: rest => stepLine l { s with host := rest }

/-- The line a host supplies for the word `w`: its own word line, a valid input line for it (R225), without dump. -/
def lineOfWord (w : Word) : HostLine where
  text := grp4 w
  dumpEn := false

/-- The state with the word of value `w` (its low `nbits` bits) as the next line the host supplies. -/
def supplyWord (s : State) (nbits w : Nat) : State :=
  { s with host := lineOfWord (BitVec.ofNat 32 (w % 2 ^ nbits)) :: s.host }

end Sys2Proof.Machine
end

