-- ==== Sys2Proof/Machine/Step.lean ====
section
/-! DEFINITION. The machine's step (spec 40_datapath.md R100, 10_state.md R31) and the placing of a word where the next step
takes it (log 12). -/

namespace Sys2Proof.Machine

/-- One step: the next line the host supplies. -/
def step (s : State) : Host.Outcome State Fault Refusal := stepHost s

/-- `s` with the word of value `w` supplied next. -/
def State.withFetchWord (s : State) (nbits w : Nat) : State := supplyWord s nbits w

end Sys2Proof.Machine
end

