-- ==== Sys2Proof/Machine/Datapath.lean ====
section
/-! DEFINITION. The second design the spec gives of one step: the sub-blocks wired together by the decoder's control table
(spec 00_scope.md R3; 40_datapath.md R100, R105 to R113, R130 to R136). The meanings do not use it; a statement says the two
agree. -/

namespace Sys2Proof.Machine

/-- Which field addresses the write port (R112, R21). -/
inductive WriteSel where
  | rd
  | rt
deriving DecidableEq, Repr

/-- The ALU's second operand (R109, R112). -/
inductive BSel where
  | readB
  | ext
deriving DecidableEq, Repr

/-- The control values of one row of R112; a `-` of the table is `none`. -/
structure Control where
  we : Bool
  wa : Option WriteSel
  op : Option AluOp
  b : Option BSel
  ext : Option ExtMode
  cmp : Option Cmp
deriving DecidableEq, Repr

/-- A row of R112 for an R-type instruction. -/
def controlR (op : AluOp) : Control := ⟨true, some .rd, some op, some .readB, none, none⟩

/-- A row of R112 for an I-type ALU instruction. -/
def controlI (op : AluOp) (mode : ExtMode) : Control := ⟨true, some .rt, some op, some .ext, some mode, none⟩

/-- A row of R112 that writes nothing. -/
def controlPrint (mode : Option ExtMode) (cmp : Option Cmp) : Control := ⟨false, none, none, none, mode, cmp⟩

/-- The control table (R112). -/
def controlOf : Decoded → Control
  | .instr (.add _ _ _ _) => controlR .add
  | .instr (.sub _ _ _ _) => controlR .sub
  | .instr (.and _ _ _ _) => controlR .and
  | .instr (.or _ _ _ _) => controlR .or
  | .instr (.slt _ _ _ _) => controlR .slt
  | .instr (.addi _ _ _) => controlI .add .sext
  | .instr (.andi _ _ _) => controlI .and .zext
  | .instr (.ori _ _ _) => controlI .or .zext
  | .instr (.lui _ _ _) => ⟨true, some .rt, none, none, some .upper, none⟩
  | .instr (.lw _ _ _) => controlPrint (some .sext) none
  | .instr (.sw _ _ _) => controlPrint (some .sext) none
  | .instr (.beq _ _ _) => controlPrint (some .sext) (some .eq)
  | .instr (.bne _ _ _) => controlPrint (some .sext) (some .ne)
  | .unknownFunct _ => controlPrint none none
  | .unknownOpcode _ => controlPrint none none

/-- The write address the control selects; the unused address of a row that writes nothing is 0 (log 14). -/
def writeAddr (c : Control) (f : Fields) : RegIdx :=
  match c.wa with
  | some .rd => f.rd
  | some .rt => f.rt
  | none => 0

/-- The extender's output under the control; 0 where the row does not use it (log 14). -/
def extOut (c : Control) (f : Fields) : Word :=
  match c.ext with
  | some mode => ext mode f.imm
  | none => 0#32

/-- The ALU's second operand under the control (R109). -/
def operandB (c : Control) (x : RegFile) (f : Fields) : Word :=
  match c.b with
  | some .readB => readPort x f.rt
  | some .ext => extOut c f
  | none => 0#32

/-- The write data: the ALU's result, or the extender's output where the row uses no ALU (R109, R112). -/
def writeData (c : Control) (x : RegFile) (f : Fields) : Word :=
  match c.op with
  | some op => alu op (readPort x f.rs) (operandB c x f)
  | none => extOut c f

/-- The comparator's report; false where the row does not use it (log 14). -/
def takenOut (c : Control) (x : RegFile) (f : Fields) : Bool :=
  match c.cmp with
  | some cmp => taken cmp (readPort x f.rs) (readPort x f.rt)
  | none => false

/-- The register file after the step, by the write port under the control (R110, R112). -/
def datapathRegs (x : RegFile) (f : Fields) : RegFile :=
  let c := controlOf (decodeFields f)
  writePort x c.we (writeAddr c f) (writeData c x f)

/-- The decoded line, by the formatter and the comparator under the control (R74, R113). -/
def datapathLine (names : RegNames) (x : RegFile) (f : Fields) : String :=
  decodedLine names (takenOut (controlOf (decodeFields f)) x f) (decodeFields f)

/-- `step(x, w, dump_en)` of R100 as a function of register file, word and dump bit: the new register file and the lines. -/
def blockStep (names : RegNames) (x : RegFile) (w : Word) (dumpEn : Bool) : RegFile × List String :=
  let f := extract w
  let x' := datapathRegs x f
  (x', [grp4 w, datapathLine names x f] ++ (if dumpEn then dump names x' else []))

end Sys2Proof.Machine
end

