-- ==== Sys2Proof/Safety.lean ====
section
/-! DEFINITION. The terms claims use: which registers an instruction reads and writes, runs of the machine, and the invariant
of a run (spec 10_state.md R24; 20_memory.md R47; 40_datapath.md R102; 60_exceptions.md R229). -/

namespace Sys2Proof.Machine

/-- The registers an instruction reads (R24); the register dump, which reads all of them, is no part of an instruction. -/
def readsOf : Instr → List RegIdx
  | .add _ rs rt _ | .sub _ rs rt _ | .and _ rs rt _ | .or _ rs rt _ | .slt _ rs rt _ => [rs, rt]
  | .beq rs rt _ | .bne rs rt _ => [rs, rt]
  | .addi _ rs _ | .andi _ rs _ | .ori _ rs _ => [rs]
  | .lui _ _ _ | .lw _ _ _ | .sw _ _ _ => []

/-- The register an instruction writes, if any (R24). -/
def writeOf : Instr → Option RegIdx
  | .add rd _ _ _ | .sub rd _ _ _ | .and rd _ _ _ | .or rd _ _ _ | .slt rd _ _ _ => some rd
  | .addi rt _ _ | .andi rt _ _ | .ori rt _ _ | .lui rt _ _ => some rt
  | .beq _ _ _ | .bne _ _ _ | .lw _ _ _ | .sw _ _ _ => none

/-- The words whose masked bits match are exactly those the decoder reads as this instruction, with the word's own fields as
its operands (R69 to R71). -/
def RecognisedBy (mask mtch : Word) (ofFields : Fields → Instr) : Prop :=
  ∀ w : Word, w &&& mask = mtch ↔ decode w = .instr (ofFields (extract w))

/-- `t` is `s` with `v` in register `dst` and one more emitted line, and nothing else changed: every other register, the
names and the host's remaining lines are as in `s`. -/
def WritesAndReports (dst : RegIdx) (v : Word) (line : String) (s t : State) : Prop :=
  t.x[dst] = v ∧ (∀ j : RegIdx, j ≠ dst → t.x[j] = s.x[j]) ∧ t.regName = s.regName ∧ t.host = s.host ∧
    t.console = s.console ++ [.line line]

/-- `t` is `s` with one more emitted line, and nothing else changed. -/
def OnlyReports (line : String) (s t : State) : Prop :=
  t.x = s.x ∧ t.regName = s.regName ∧ t.host = s.host ∧ t.console = s.console ++ [.line line]

/-- How many lines the block emits for one line of the host: two and the eight of the dump for a word (R102), none for a line
that is no word. -/
def linesFor (l : HostLine) : Nat :=
  match classify l.text with
  | .word _ => if l.dumpEn then 10 else 2
  | .wrongBitCount => 0
  | .invalidCharacter => 0

/-- The host line is a word that writes a register (R24). -/
def isWriter (l : HostLine) : Bool :=
  match classify l.text with
  | .word w =>
    match decode w with
    | .instr i => (writeOf i).isSome
    | .unknownFunct _ => false
    | .unknownOpcode _ => false
  | .wrongBitCount => false
  | .invalidCharacter => false

/-- `k` steps of the machine, stopping at the first stop. -/
def runSteps (k : Nat) (s : State) : Result := Host.Core.run Sys2Proof.core k s

/-- The host has no further line: the run has ended (R229). -/
def State.ended (s : State) : Bool := s.host.isEmpty

/-- The lines of a console that is a sequence of complete step outputs and skip reports (R100, R102, R227): every word line
is followed by a decoded line of the SAME word, and a dump is whole. -/
inductive Transcript (names : RegNames) : List ConsoleItem → Prop where
  /-- Nothing emitted. -/
  | start : Transcript names []
  /-- The report of a line that is not exactly 32 binary digits. -/
  | skipped (c : List ConsoleItem) (text : String) (before : Transcript names c)
      (why : classify text = .wrongBitCount) : Transcript names (c ++ [.skipReport text])
  /-- The two lines of a step without dump. -/
  | word (c : List ConsoleItem) (w : Word) (taken : Bool) (before : Transcript names c) :
      Transcript names (c ++ [.line (grp4 w), .line (decodedLine names taken (decode w))])
  /-- The ten lines of a step with dump. -/
  | wordDump (c : List ConsoleItem) (w : Word) (taken : Bool) (x : RegFile) (before : Transcript names c) :
      Transcript names
        (c ++ [.line (grp4 w), .line (decodedLine names taken (decode w))] ++ (dump names x).map .line)

/-- The invariant of a run: register 0 is named `$zero` (R23) and the console is a sequence of complete step outputs. -/
def Inv (s : State) : Prop := regNamesWellFormed s.regName = true ∧ Transcript s.regName s.console

end Sys2Proof.Machine
end

