-- ==== Sys2Proof/Certificates/Slice0/Obligations.lean ====
section
/-! DEFINITION. The statements for the provers, grouped as the spec groups its rules. -/

open Sys2Proof Sys2Proof.Machine

/-! ## Encoding -/

/-- Decoding the word of a well-formed instruction gives the instruction back, every operand at every value (R61 to R71). -/
def Obligations.DecodeOfEncodeIsTheInstruction : Prop :=
  ∀ i : Instr, i.wellFormed = true → decode (encode i) = .instr i

/-- A word that decodes to an instruction is exactly the word the encoder gives: no bit of a recognised word is dropped. -/
def Obligations.EncodeOfDecodeIsTheWord : Prop :=
  ∀ (w : Word) (i : Instr), decode w = .instr i → encode i = w

/-- Over all fifteen outcomes: every word's outcome is well formed, and every well-formed outcome is the outcome of some
word, the one the encoder gives (R72, R73). -/
def Obligations.OutcomesAreExactlyTheWellFormedOnes : Prop :=
  (∀ w : Word, (decode w).wellFormed = true) ∧ ∀ d : Decoded, d.wellFormed = true → decode d.encode = d

/-- The decoder agrees with the masks and matches of the opcode maps, and no word is covered by two rows (R69, R70, R73). -/
def Obligations.DecoderAgreesWithOpcodeMaps : Prop :=
  ∀ w : Word, (decode w).mnemonic? = ((opcodeTable.filter (·.covers w)).head?).map (·.mnemonic) ∧
    (opcodeTable.filter (·.covers w)).length ≤ 1

/-- Every extracted field is the word shifted and masked as the layout documents (R61, R106). -/
def Obligations.ExtractorIsShiftAndMask : Prop :=
  ∀ w : Word,
    (extract w).opcode.setWidth 32 = (w >>> 26) &&& 0x3F#32 ∧
    (extract w).rs.val = ((w >>> 21) &&& 0x1F#32).toNat ∧
    (extract w).rt.val = ((w >>> 16) &&& 0x1F#32).toNat ∧
    (extract w).rd.val = ((w >>> 11) &&& 0x1F#32).toNat ∧
    (extract w).shamt.setWidth 32 = (w >>> 6) &&& 0x1F#32 ∧
    (extract w).funct.setWidth 32 = w &&& 0x3F#32 ∧
    (extract w).imm.setWidth 32 = w &&& 0xFFFF#32 ∧
    (extract w).address.setWidth 32 = w &&& 0x3FFFFFF#32

/-- Words written out from the patterns of R71 decode to the instructions they stand for, one of each family and the two
unrecognised classes. -/
def Obligations.WrittenOutWordsDecode : Prop :=
  decode 0x00221820#32 = .instr (.add 3 1 2 0#5) ∧ decode 0x0022182A#32 = .instr (.slt 3 1 2 0#5) ∧
  decode 0x2008FFFF#32 = .instr (.addi 8 0 0xFFFF#16) ∧ decode 0x3E280001#32 = .instr (.lui 8 17 0x0001#16) ∧
  decode 0x8FA8FFFC#32 = .instr (.lw 8 29 0xFFFC#16) ∧ decode 0xAFA80008#32 = .instr (.sw 8 29 0x0008#16) ∧
  decode 0x10220004#32 = .instr (.beq 1 2 0x0004#16) ∧ decode 0x1422FFFD#32 = .instr (.bne 1 2 0xFFFD#16) ∧
  decode 0x0000000C#32 = .unknownFunct 0x0C#6 ∧ decode 0xFC000000#32 = .unknownOpcode 0x3F#6

/-- Bits an instruction does not use change neither the outcome nor its effect: two words with opcode 0 that differ only in
bits 10 to 6, and two `lui` words that differ only in bits 25 to 21, act alike on every state and are recognised alike
(R65, the spec's decision D18, log 10). -/
def Obligations.UnusedFieldsAreIgnored : Prop :=
  (∀ w w' : Word, w >>> 26 = 0#32 → (w ^^^ w') &&& 0xFFFFF83F#32 = 0#32 →
    (decode w).mnemonic? = (decode w').mnemonic? ∧ ∀ s : State, execute (decode w) s = execute (decode w') s) ∧
  (∀ w w' : Word, w >>> 26 = 0x0F#32 → (w ^^^ w') &&& 0xFC1FFFFF#32 = 0#32 →
    (decode w).mnemonic? = (decode w').mnemonic? ∧ ∀ s : State, execute (decode w) s = execute (decode w') s)

/-! ## R-type arithmetic and logic -/

/-- `add` (R150): which words it is, the wrapped signed sum of the old values in `rd`, the line, and nothing else changed; it
always completes. -/
def Obligations.AddWritesWrappedSum : Prop :=
  RecognisedBy 0xFC00003F#32 0x00000020#32 (fun f => .add f.rd f.rs f.rt f.shamt) ∧
  ∀ (rd rs rt : RegIdx) (shamt : BitVec 5) (s : State), ∃ t, exec (.add rd rs rt shamt) s = .next t ∧
    WritesAndReports rd (BitVec.ofInt 32 ((s.x[rs]).toInt + (s.x[rt]).toInt))
      ("add " ++ s.regName[rd] ++ ", " ++ s.regName[rs] ++ ", " ++ s.regName[rt]) s t

/-- `sub` (R151). -/
def Obligations.SubWritesWrappedDifference : Prop :=
  RecognisedBy 0xFC00003F#32 0x00000022#32 (fun f => .sub f.rd f.rs f.rt f.shamt) ∧
  ∀ (rd rs rt : RegIdx) (shamt : BitVec 5) (s : State), ∃ t, exec (.sub rd rs rt shamt) s = .next t ∧
    WritesAndReports rd (BitVec.ofInt 32 ((s.x[rs]).toInt - (s.x[rt]).toInt))
      ("sub " ++ s.regName[rd] ++ ", " ++ s.regName[rs] ++ ", " ++ s.regName[rt]) s t

/-- `and` (R152); the line's spelling is the spec's decision D5 (log 8). -/
def Obligations.AndWritesBitwiseAnd : Prop :=
  RecognisedBy 0xFC00003F#32 0x00000024#32 (fun f => .and f.rd f.rs f.rt f.shamt) ∧
  ∀ (rd rs rt : RegIdx) (shamt : BitVec 5) (s : State), ∃ t, exec (.and rd rs rt shamt) s = .next t ∧
    WritesAndReports rd (s.x[rs] &&& s.x[rt])
      ("and " ++ s.regName[rd] ++ ", " ++ s.regName[rs] ++ ", " ++ s.regName[rt]) s t

/-- `or` (R153); the line's spelling is the spec's decision D5 (log 8). -/
def Obligations.OrWritesBitwiseOr : Prop :=
  RecognisedBy 0xFC00003F#32 0x00000025#32 (fun f => .or f.rd f.rs f.rt f.shamt) ∧
  ∀ (rd rs rt : RegIdx) (shamt : BitVec 5) (s : State), ∃ t, exec (.or rd rs rt shamt) s = .next t ∧
    WritesAndReports rd (s.x[rs] ||| s.x[rt])
      ("or " ++ s.regName[rd] ++ ", " ++ s.regName[rs] ++ ", " ++ s.regName[rt]) s t

/-- `slt` (R154): the compare is signed, the result exactly 0 or 1; the line's spelling is the spec's decision D5 (log 8). -/
def Obligations.SltWritesSignedComparison : Prop :=
  RecognisedBy 0xFC00003F#32 0x0000002A#32 (fun f => .slt f.rd f.rs f.rt f.shamt) ∧
  ∀ (rd rs rt : RegIdx) (shamt : BitVec 5) (s : State), ∃ t, exec (.slt rd rs rt shamt) s = .next t ∧
    WritesAndReports rd (if (s.x[rs]).toInt < (s.x[rt]).toInt then 1#32 else 0#32)
      ("slt " ++ s.regName[rd] ++ ", " ++ s.regName[rs] ++ ", " ++ s.regName[rt]) s t

/-! ## I-type arithmetic and logic -/

/-- `addi` (R170): the immediate is added as a signed number, wrapping, and printed as one; the line's
spelling is the spec's decision D6 (log 8). -/
def Obligations.AddiAddsSignedImmediate : Prop :=
  RecognisedBy 0xFC000000#32 0x20000000#32 (fun f => .addi f.rt f.rs f.imm) ∧
  ∀ (rt rs : RegIdx) (imm : Imm16) (s : State), ∃ t, exec (.addi rt rs imm) s = .next t ∧
    WritesAndReports rt (BitVec.ofInt 32 ((s.x[rs]).toInt + imm.toInt))
      ("addi " ++ s.regName[rt] ++ ", " ++ s.regName[rs] ++ ", " ++ dec imm.toInt) s t

/-- `andi` (R171): the immediate is zero-extended; the line's spelling is the spec's decision D7 (log 8). -/
def Obligations.AndiMasksWithZeroExtendedImmediate : Prop :=
  RecognisedBy 0xFC000000#32 0x30000000#32 (fun f => .andi f.rt f.rs f.imm) ∧
  ∀ (rt rs : RegIdx) (imm : Imm16) (s : State), ∃ t, exec (.andi rt rs imm) s = .next t ∧
    WritesAndReports rt (s.x[rs] &&& BitVec.ofNat 32 imm.toNat)
      ("andi " ++ s.regName[rt] ++ ", " ++ s.regName[rs] ++ ", 0x" ++ hex4 imm) s t

/-- `ori` (R172): the immediate is zero-extended; the line's spelling is the spec's decision D7 (log 8). -/
def Obligations.OriSetsZeroExtendedImmediate : Prop :=
  RecognisedBy 0xFC000000#32 0x34000000#32 (fun f => .ori f.rt f.rs f.imm) ∧
  ∀ (rt rs : RegIdx) (imm : Imm16) (s : State), ∃ t, exec (.ori rt rs imm) s = .next t ∧
    WritesAndReports rt (s.x[rs] ||| BitVec.ofNat 32 imm.toNat)
      ("ori " ++ s.regName[rt] ++ ", " ++ s.regName[rs] ++ ", 0x" ++ hex4 imm) s t

/-- `lui` (R173): the immediate times `2^16`, whatever the ignored `rs` field holds; the line's spelling and
ignoring `rs` are the spec's decisions D8 and D18 (log 8, log 10). -/
def Obligations.LuiPlacesImmediateInUpperHalf : Prop :=
  RecognisedBy 0xFC000000#32 0x3C000000#32 (fun f => .lui f.rt f.rs f.imm) ∧
  ∀ (rt rs : RegIdx) (imm : Imm16) (s : State), ∃ t, exec (.lui rt rs imm) s = .next t ∧
    WritesAndReports rt (BitVec.ofNat 32 (imm.toNat * 65536)) ("lui " ++ s.regName[rt] ++ ", 0x" ++ hex4 imm) s t

/-! ## Loads and stores, branches, unrecognised words -/

/-- `lw` (R190): decoded and printed only. -/
def Obligations.LwOnlyPrints : Prop :=
  RecognisedBy 0xFC000000#32 0x8C000000#32 (fun f => .lw f.rt f.rs f.imm) ∧
  ∀ (rt rs : RegIdx) (imm : Imm16) (s : State), ∃ t, exec (.lw rt rs imm) s = .next t ∧
    OnlyReports ("lw " ++ s.regName[rt] ++ ", " ++ dec imm.toInt ++ "(" ++ s.regName[rs] ++ ")") s t

/-- `sw` (R191): decoded and printed only; the line's spelling is the spec's decision D9 (log 8). -/
def Obligations.SwOnlyPrints : Prop :=
  RecognisedBy 0xFC000000#32 0xAC000000#32 (fun f => .sw f.rt f.rs f.imm) ∧
  ∀ (rt rs : RegIdx) (imm : Imm16) (s : State), ∃ t, exec (.sw rt rs imm) s = .next t ∧
    OnlyReports ("sw " ++ s.regName[rt] ++ ", " ++ dec imm.toInt ++ "(" ++ s.regName[rs] ++ ")") s t

/-- `beq` (R200): reports whether the two registers are equal, and changes nothing; the not-taken line's
prefix is the spec's decision D11 (log 8). -/
def Obligations.BeqReportsEquality : Prop :=
  RecognisedBy 0xFC000000#32 0x10000000#32 (fun f => .beq f.rs f.rt f.imm) ∧
  ∀ (rs rt : RegIdx) (imm : Imm16) (s : State), ∃ t, exec (.beq rs rt imm) s = .next t ∧
    OnlyReports ("beq " ++ s.regName[rs] ++ ", " ++ s.regName[rt] ++ ", " ++ dec imm.toInt ++
      (if s.x[rs] = s.x[rt] then " (branch taken)" else " (branch not taken)")) s t

/-- `bne` (R201): reports whether the two registers differ, and changes nothing. -/
def Obligations.BneReportsDifference : Prop :=
  RecognisedBy 0xFC000000#32 0x14000000#32 (fun f => .bne f.rs f.rt f.imm) ∧
  ∀ (rs rt : RegIdx) (imm : Imm16) (s : State), ∃ t, exec (.bne rs rt imm) s = .next t ∧
    OnlyReports ("bne " ++ s.regName[rs] ++ ", " ++ s.regName[rt] ++ ", " ++ dec imm.toInt ++
      (if s.x[rs] ≠ s.x[rt] then " (branch taken)" else " (branch not taken)")) s t

/-- Unknown R-type funct (R210): which words, the line, and nothing changed; upper-case digits are the spec's decision D10
(log 8). -/
def Obligations.UnknownFunctOnlyPrints : Prop :=
  (∀ w : Word, (w &&& 0xFC000000#32 = 0#32 ∧
      w &&& 0x3F#32 ∉ [0x20#32, 0x22#32, 0x24#32, 0x25#32, 0x2A#32]) ↔
    decode w = .unknownFunct (extract w).funct) ∧
  ∀ (funct : BitVec 6) (s : State), ∃ t, execute (.unknownFunct funct) s = .next t ∧
    OnlyReports ("Unknown R-type funct: 0x" ++ hex2 funct) s t

/-- Unknown opcode (R211): which words, the line, and nothing changed. -/
def Obligations.UnknownOpcodeOnlyPrints : Prop :=
  (∀ w : Word, w >>> 26 ∉ [0x00#32, 0x04#32, 0x05#32, 0x08#32, 0x0C#32, 0x0D#32, 0x0F#32, 0x23#32, 0x2B#32] ↔
    decode w = .unknownOpcode (extract w).opcode) ∧
  ∀ (opcode : BitVec 6) (s : State), ∃ t, execute (.unknownOpcode opcode) s = .next t ∧
    OnlyReports ("Unknown opcode: 0x" ++ hex2 opcode) s t

/-! ## The sub-blocks -/

/-- `sext_32` replicates bit 15 into the upper half, `zext_32` puts zeros there (R10). -/
def Obligations.ExtensionsBitByBit : Prop :=
  ∀ (v : Imm16) (k : Nat), k < 32 →
    (sext32 v).getLsbD k = (if k < 16 then v.getLsbD k else v.getLsbD 15) ∧
    (zext32 v).getLsbD k = (if k < 16 then v.getLsbD k else false)

/-- The extender's three modes as numbers, and which mode each instruction's control row selects (R107). -/
def Obligations.ExtenderModes : Prop :=
  (∀ imm : Imm16, (ext .sext imm).toInt = imm.toInt ∧ (ext .zext imm).toNat = imm.toNat ∧
    (ext .upper imm).toNat = imm.toNat * 65536) ∧
  (∀ (rt rs : RegIdx) (imm : Imm16),
    (controlOf (.instr (.addi rt rs imm))).ext = some .sext ∧ (controlOf (.instr (.lw rt rs imm))).ext = some .sext ∧
    (controlOf (.instr (.sw rt rs imm))).ext = some .sext ∧ (controlOf (.instr (.beq rs rt imm))).ext = some .sext ∧
    (controlOf (.instr (.bne rs rt imm))).ext = some .sext ∧ (controlOf (.instr (.andi rt rs imm))).ext = some .zext ∧
    (controlOf (.instr (.ori rt rs imm))).ext = some .zext ∧ (controlOf (.instr (.lui rt rs imm))).ext = some .upper)

/-- The ALU's five operations, as numbers modulo `2^32`, bit by bit, and as a signed comparison (R108). -/
def Obligations.AluOperations : Prop :=
  ∀ a b : Word,
    (alu .add a b).toNat = (a.toNat + b.toNat) % 2 ^ 32 ∧
    ((alu .sub a b).toNat : Int) = ((a.toNat : Int) - (b.toNat : Int)) % 2 ^ 32 ∧
    (∀ k, (alu .and a b).getLsbD k = (a.getLsbD k && b.getLsbD k)) ∧
    (∀ k, (alu .or a b).getLsbD k = (a.getLsbD k || b.getLsbD k)) ∧
    (alu .slt a b).toNat = (if a.toInt < b.toInt then 1 else 0)

/-- The write port accepts every index, 0 included, and leaves every other register; disabled it leaves all (R110, R111). -/
def Obligations.WritePortAcceptsEveryIndex : Prop :=
  ∀ (x : RegFile) (wa : RegIdx) (wd : Word),
    (writePort x true wa wd)[wa] = wd ∧ (∀ j : RegIdx, j ≠ wa → (writePort x true wa wd)[j] = x[j]) ∧
    writePort x false wa wd = x

/-- The comparator: equality of patterns, for which signed and unsigned reading agree; it chooses only the annotation
(R113). -/
def Obligations.ComparatorIsPatternEquality : Prop :=
  (∀ a b : Word, (taken .eq a b = true ↔ a.toInt = b.toInt) ∧ (taken .eq a b = true ↔ a.toNat = b.toNat) ∧
    taken .ne a b = !taken .eq a b) ∧
  ∀ (rs rt : RegIdx) (imm : Imm16) (s : State),
    ∃ t u, exec (.beq rs rt imm) s = .next t ∧ exec (.bne rs rt imm) s = .next u ∧
      OnlyReports (lineBranch s.regName "beq" rs rt imm (taken .eq s.x[rs] s.x[rt])) s t ∧
      OnlyReports (lineBranch s.regName "bne" rs rt imm (taken .ne s.x[rs] s.x[rt])) s u

/-- The sub-blocks wired together by the control table compute the same step as the instruction rules: same register file,
same lines, on every word and every state (R112 against R140). -/
def Obligations.DatapathRefinesInstructionRules : Prop :=
  ∀ (w : Word) (dumpEn : Bool) (s : State),
    stepWord w dumpEn s = .next { s with
      x := (blockStep s.regName s.x w dumpEn).1,
      console := s.console ++ (blockStep s.regName s.x w dumpEn).2.map .line }

/-! ## The formatter -/

/-- The word line has 39 characters: every fifth is a space, the others are the bits from bit 31 down (R130). -/
def Obligations.WordLineCharacters : Prop :=
  ∀ w : Word, (grp4 w).toList.length = 39 ∧
    ∀ k, k < 39 → (grp4 w).toList[k]? =
      some (if k % 5 = 4 then ' ' else if w.getLsbD (31 - (k - k / 5)) then '1' else '0')

/-- The decimal spelling: a minus sign exactly for a negative number, then digits that read back as the magnitude, with no
leading zero unless the number is zero (R131, the spec's decision D10, log 8). -/
def Obligations.DecimalSpelling : Prop :=
  ∀ n : Int, ∃ ds : List Char,
    (dec n).toList = (if n < 0 then ['-'] else []) ++ ds ∧
    ds ≠ [] ∧ (∀ c ∈ ds, c.isDigit = true) ∧
    ds.foldl (fun v c => 10 * v + (c.toNat - 48)) 0 = n.natAbs ∧
    (ds.head? = some '0' → ds = ['0'])

/-- `hex2` and `hex4`: exactly two and four characters, each an upper-case hexadecimal digit, that read back as the value
(R132, R133, the spec's decisions D7 and D10, log 8). -/
def Obligations.HexSpelling : Prop :=
  let digits := "0123456789ABCDEF".toList
  (∀ v : BitVec 6, (hex2 v).toList.length = 2 ∧ (∀ c ∈ (hex2 v).toList, c ∈ digits) ∧
    (hex2 v).toList.foldl (fun n c => 16 * n + digits.idxOf c) 0 = v.toNat) ∧
  (∀ v : Imm16, (hex4 v).toList.length = 4 ∧ (∀ c ∈ (hex4 v).toList, c ∈ digits) ∧
    (hex4 v).toList.foldl (fun n c => 16 * n + digits.idxOf c) 0 = v.toNat)

/-- The dump has eight lines, line `r` the registers `4r` to `4r+3` in order, each `name = signed value`, joined by tabs
(R136, the spec's decision D12, log 8). -/
def Obligations.DumpLayout : Prop :=
  ∀ (names : RegNames) (x : RegFile), (dump names x).length = 8 ∧
    ∀ (r : Fin 8) (i0 i1 i2 i3 : RegIdx), i0.val = 4 * r.val → i1.val = i0.val + 1 → i2.val = i0.val + 2 →
      i3.val = i0.val + 3 →
      (dump names x)[r.val]? = some (names[i0] ++ " = " ++ dec (x[i0]).toInt ++ "\t" ++ names[i1] ++ " = " ++
        dec (x[i1]).toInt ++ "\t" ++ names[i2] ++ " = " ++ dec (x[i2]).toInt ++ "\t" ++ names[i3] ++ " = " ++
        dec (x[i3]).toInt)

/-- Every line a step emits is printed with one newline after it, and none of them is blank (R135, the spec's decision
D13, log 8). -/
def Obligations.LinesPrintedWithoutBlankLines : Prop :=
  ∀ (w : Word) (dumpEn : Bool) (s : State), ∃ (t : State) (lines : List String),
    stepWord w dumpEn s = .next t ∧ t.console = s.console ++ lines.map .line ∧ (∀ line ∈ lines, line ≠ "") ∧
    printedText t.console = printedText s.console ++ String.join (lines.map (· ++ "\n"))

/-! ## The step -/

/-- When the host's next line is a word that decodes to an instruction, the step emits the word line, is `exec` of that
instruction, and then appends the dump if asked for; the host's remaining lines are the rest. -/
def Obligations.StepRunsTheDecodedInstruction : Prop :=
  ∀ (s : State) (l : HostLine) (rest : List HostLine) (w : Word) (i : Instr),
    s.host = l :: rest → classify l.text = .word w → decode w = .instr i →
    ∀ t, exec i { s with host := rest, console := s.console ++ [.line (grp4 w)] } = .next t →
      step s = .next (if l.dumpEn then { t with console := t.console ++ (dump t.regName t.x).map .line } else t)

/-- A step on a word (R100): in order the word line, the rule of its outcome with exactly one decoded line, and the dump of
the register file that rule left; it returns the register file that rule left. -/
def Obligations.StepEmitsWordLineDecodedLineDump : Prop :=
  ∀ (s : State) (l : HostLine) (rest : List HostLine) (w : Word), s.host = l :: rest → classify l.text = .word w →
    ∃ (t u : State) (line : String),
      execute (decode w) { s with host := rest } = .next t ∧ t.console = s.console ++ [.line line] ∧
      (∃ k : RegIdx, ∀ j : RegIdx, j ≠ k → t.x[j] = s.x[j]) ∧
      step s = .next u ∧ u.x = t.x ∧ u.regName = s.regName ∧ u.host = rest ∧
      u.console = s.console ++ [.line (grp4 w), .line line] ++
        (if l.dumpEn then (dump s.regName t.x).map .line else [])

/-- A step on a word never fails and emits exactly two lines, ten with the dump (R102). -/
def Obligations.StepNeverFailsAndEmitsTwoOrTenLines : Prop :=
  ∀ (s : State) (l : HostLine) (rest : List HostLine) (w : Word), s.host = l :: rest → classify l.text = .word w →
    ∃ (t : State) (lines : List String), step s = .next t ∧ t.console = s.console ++ lines.map .line ∧
      lines.length = if l.dumpEn then 10 else 2

/-- A step's lines and register file depend on the register file, the word and the dump bit alone, not on what was emitted
or supplied before or comes after (R103, R30), and likewise on `REG_NAME`, the parameter. -/
def Obligations.StepIsAFunctionOfRegistersWordAndDump : Prop :=
  ∀ (s1 s2 : State) (w : Word) (dumpEn : Bool), s1.x = s2.x → s1.regName = s2.regName →
    ∃ (t1 t2 : State) (lines : List String), stepWord w dumpEn s1 = .next t1 ∧ stepWord w dumpEn s2 = .next t2 ∧
      t1.x = t2.x ∧ t1.console = s1.console ++ lines.map .line ∧ t2.console = s2.console ++ lines.map .line

/-- A step changes at most one register, and that one is addressed by the word's `rd` field if its opcode is 0 and by its
`rt` field otherwise (R21). -/
def Obligations.StepWritesAtMostOneRegister : Prop :=
  ∀ (w : Word) (dumpEn : Bool) (s : State), ∃ t, stepWord w dumpEn s = .next t ∧
    ∀ j : RegIdx, j ≠ (if w >>> 26 = 0#32 then (extract w).rd else (extract w).rt) → t.x[j] = s.x[j]

/-- The table of R24: an instruction changes no register but the one listed; its line and the value it writes depend on the
listed registers only. -/
def Obligations.ReadsAndWritesOfEveryInstruction : Prop :=
  ∀ (i : Instr) (s1 s2 : State), s1.regName = s2.regName → (∀ r ∈ readsOf i, s1.x[r] = s2.x[r]) →
    ∃ (t1 t2 : State) (line : String), exec i s1 = .next t1 ∧ exec i s2 = .next t2 ∧
      (∀ j : RegIdx, writeOf i ≠ some j → t1.x[j] = s1.x[j] ∧ t2.x[j] = s2.x[j]) ∧
      (∀ j : RegIdx, writeOf i = some j → t1.x[j] = t2.x[j]) ∧
      t1.console = s1.console ++ [.line line] ∧ t2.console = s2.console ++ [.line line]

/-- The frame of every instruction: whatever it writes, every other register, the names and the host's remaining lines stay,
and the console grows by one line. -/
def Obligations.FrameOfEveryInstruction : Prop :=
  ∀ (i : Instr) (s t : State), exec i s = .next t →
    (∀ j : RegIdx, writeOf i ≠ some j → t.x[j] = s.x[j]) ∧ t.regName = s.regName ∧ t.host = s.host ∧
    ∃ line, t.console = s.console ++ [.line line]

/-- Register 0 is written like any other and read back (R22): after `lui $zero`, `or` of register 0 with itself copies the
written value. -/
def Obligations.RegisterZeroIsWritable : Prop :=
  ∀ (rs rd : RegIdx) (shamt : BitVec 5) (imm : Imm16) (s : State),
    ∃ t u, exec (.lui 0 rs imm) s = .next t ∧ t.x[(0 : RegIdx)] = BitVec.ofNat 32 (imm.toNat * 65536) ∧
      exec (.or rd 0 0 shamt) t = .next u ∧ u.x[rd] = BitVec.ofNat 32 (imm.toNat * 65536)

/-- Source reads precede the destination write (R254): with one register as both sources and destination, `add` doubles its
old value and `sub` clears it. -/
def Obligations.SourceReadsPrecedeTheWrite : Prop :=
  ∀ (r : RegIdx) (shamt : BitVec 5) (s : State),
    ∃ t u, exec (.add r r r shamt) s = .next t ∧ exec (.sub r r r shamt) s = .next u ∧
      (t.x[r]).toNat = 2 * (s.x[r]).toNat % 2 ^ 32 ∧ u.x[r] = 0#32

/-- Names carry no behaviour (R23): changing `REG_NAME` changes no register. -/
def Obligations.NamesCarryNoBehaviour : Prop :=
  ∀ (w : Word) (d1 d2 : Bool) (s : State) (names : RegNames), ∃ t u,
    stepWord w d1 s = .next t ∧ stepWord w d2 { s with regName := names } = .next u ∧ t.x = u.x ∧
    u.regName = names ∧ t.regName = s.regName

/-- No instruction changes which word comes next: every step that goes on takes exactly the first remaining line off the
host's stream, whatever that line is (R26, R31, R202). Two clauses are the model's choice: that a skipped line takes one
machine step, which drops it (log 6), and that a step with no line left answers the same state (log 4); the stream in State
is log 1. -/
def Obligations.NextWordIsAlwaysTheHostsNext : Prop :=
  ∀ s t : State, step s = .next t → t.host = s.host.tail

/-- An unrecognised word is not fatal and leaves no trace in the registers (R212). -/
def Obligations.UnrecognisedWordLeavesNoTrace : Prop :=
  ∀ (s : State) (l : HostLine) (rest : List HostLine) (w : Word), s.host = l :: rest → classify l.text = .word w →
    (decode w).mnemonic? = none →
    ∃ t line, step s = .next t ∧ t.x = s.x ∧ t.host = rest ∧
      t.console = s.console ++ [.line (grp4 w), .line line] ++ (if l.dumpEn then (dump s.regName s.x).map .line else [])

/-! ## The host's lines -/

/-- What the host makes of a line (R222, R225 to R227): the first check that applies decides; a word's bit `31 - k` is the
`k`-th character that is not whitespace. The whitespace set and the order of the checks are the spec's decision D19 (log 11). -/
def Obligations.LineClassification : Prop :=
  ∀ text : String,
    let blanks := [' ', '\t', '\n', '\x0b', '\x0c', '\r']
    let valid := ∀ c ∈ text.toList, c = '0' ∨ c = '1' ∨ c ∈ blanks
    let digits := text.toList.filter (fun c => decide (c ∉ blanks))
    (classify text = .invalidCharacter ↔ ¬ valid) ∧
    (classify text = .wrongBitCount ↔ valid ∧ digits.length ≠ 32) ∧
    (∀ w : Word, classify text = .word w ↔ valid ∧ digits.length = 32 ∧
      ∀ k, k < 32 → digits[k]? = some (if w.getLsbD (31 - k) then '1' else '0'))

/-- The block's own word line is a valid input line for the same word, so every 32-bit pattern can reach the block (R225,
R228). -/
def Obligations.WordLineIsAnInputLineForTheWord : Prop :=
  ∀ w : Word, classify (grp4 w) = .word w

/-- A line of the wrong length starts no step: it is discarded and reported, the register file is unchanged, the next line
follows (R227; that this takes one step of the machine and how the report is held is log 6). -/
def Obligations.WrongBitCountSkipsTheLine : Prop :=
  ∀ (s : State) (l : HostLine) (rest : List HostLine), s.host = l :: rest → classify l.text = .wrongBitCount →
    step s = .next { s with host := rest, console := s.console ++ [.skipReport l.text] }

/-- The machine stops exactly when the host's next line holds a character that is neither `0`, `1` nor whitespace, and then
with that fault; it refuses nothing (R220, R221, R226). -/
def Obligations.OnlyAnInvalidCharacterStopsTheMachine : Prop :=
  ∀ s : State,
    (∀ r, step s ≠ .refused r) ∧
    (∀ f, step s = .fault f ↔ ∃ l rest, s.host = l :: rest ∧ f = .invalidCharacter l.text ∧
      ∃ c ∈ l.text.toList, c ∉ ['0', '1', ' ', '\t', '\n', '\x0b', '\x0c', '\r'])

/-- Between words the block is idle: only a word changes a register, and with no line left the whole state is held
(R237, the spec's decision D23; that the model's step answers the same state then is log 4). -/
def Obligations.OnlyAWordChangesTheRegisters : Prop :=
  (∀ s : State, s.host = [] → step s = .next s) ∧
  ∀ s t : State, s.presented = none → step s = .next t → t.x = s.x

/-- Each presented word starts exactly one step of the block, with the word and the dump bit presented (R104). -/
def Obligations.EachPresentedWordStartsOneStep : Prop :=
  ∀ (s : State) (w : Word) (dumpEn : Bool), s.presented = some (w, dumpEn) →
    step s = stepWord w dumpEn { s with host := s.host.tail } ∧ ∃ t, step s = .next t ∧ t.host = s.host.tail

/-! ## Reset, invariants, runs -/

/-- Reset leaves every register 0, and the machine then waits for its first word (R250, R32; that waiting is a step
to the same state is log 4). -/
def Obligations.ResetClearsEveryRegister : Prop :=
  (∀ i : RegIdx, State.reset.x[i] = 0#32) ∧ step State.reset = .next State.reset

/-- The invariant holds after reset. -/
def Obligations.InvariantHoldsAtReset : Prop := Inv State.reset

/-- Every step keeps the invariant: register 0 stays named `$zero` and the console stays a sequence of complete step
outputs, each word line followed by a decoded line of the same word and a dump whole. That names and console stand in State is the model's choice
(log 2, log 3), as is the skip report between step outputs (log 6). -/
def Obligations.StepKeepsTheInvariant : Prop :=
  ∀ s t : State, Inv s → step s = .next t → Inv t

/-- Over lines without an invalid character, as many steps as there are lines consume every line, and have emitted two lines
for each word, ten where the dump was asked for, and none for a skipped line (R102, R229). That one machine step takes one
line of the host, skipped lines counted, is the model's choice (log 1, log 6). -/
def Obligations.RunConsumesEveryLine : Prop :=
  ∀ s : State, (∀ l ∈ s.host, classify l.text ≠ .invalidCharacter) →
    ∃ t, runSteps s.host.length s = .next t ∧ t.ended = true ∧
      t.textOut.length = s.textOut.length + (s.host.map linesFor).sum

/-- The outcome of a run is that of performing the steps one after another in the order the words were supplied: a run over
`a` then `b` is the run over `a`, and from the state that leaves, the run over `b`; a stop within `a` is the same stop
(R47, R226). That one machine step takes one line, skipped lines included (log 1, log 6), and that the end of the run is a
fault (log 5) are the model's choice. -/
def Obligations.RunsComposeInSupplyOrder : Prop :=
  ∀ (s : State) (a b : List HostLine) (k : Nat),
    (∀ t, runSteps a.length { s with host := a } = .next t →
      t.host = [] ∧ runSteps (a.length + k) { s with host := a ++ b } = runSteps k { t with host := b }) ∧
    (∀ f, runSteps a.length { s with host := a } = .fault f →
      runSteps (a.length + k) { s with host := a ++ b } = .fault f)

/-- The first line with an invalid character ends the run: no word of that line or of a later one reaches the block, and
before it the run is the run over the earlier lines alone; the completion status is not zero (R226). One machine step a line
(log 1, log 6), the end of the run as a fault (log 5) and the form of the status (log 7) are the model's choice. -/
def Obligations.InvalidCharacterEndsTheRun : Prop :=
  ∀ (s : State) (a b : List HostLine) (l : HostLine) (k : Nat),
    (∀ m ∈ a, classify m.text ≠ .invalidCharacter) → classify l.text = .invalidCharacter →
    (∃ t, runSteps a.length { s with host := a } = .next t ∧
      runSteps a.length { s with host := a ++ l :: b } = .next { t with host := l :: b }) ∧
    runSteps (a.length + 1 + k) { s with host := a ++ l :: b } = .fault (.invalidCharacter l.text) ∧
    (Fault.invalidCharacter l.text).status ≠ 0

/-- Skipped lines leave no trace in the block: a run with them and the run without them emit the same lines and leave the
same registers (R227). That one machine step takes one line, skipped lines counted, is the model's choice (log 1, log 6). -/
def Obligations.SkippedLinesLeaveNoTraceInTheBlock : Prop :=
  ∀ s t : State, runSteps s.host.length s = .next t →
    let kept := s.host.filter (fun l => decide (classify l.text ≠ .wrongBitCount))
    ∃ u, runSteps kept.length { s with host := kept } = .next u ∧ u.x = t.x ∧ u.textOut = t.textOut

/-- The registers after a run depend on the register-writing words alone (R24): with every load, store, branch, unrecognised
word and skipped line removed, and any choice of dumps, the run leaves the same registers. That one machine step
takes one line, skipped lines counted, is the model's choice (log 1, log 6). -/
def Obligations.RegistersDependOnWritersOnly : Prop :=
  ∀ (s t : State) (dumpEn : Bool), runSteps s.host.length s = .next t →
    let kept := (s.host.filter isWriter).map (fun l => { l with dumpEn := dumpEn })
    ∃ u, runSteps kept.length { s with host := kept } = .next u ∧ u.x = t.x
end

