-- ==== Sys2Proof/Laws/Decode.lean ====
section
/-! SUPPORT. The small lemmas of the extractor and the encoder: the bits of a placed field, the fields of an R-type and an
I-type word, and a word put together again from its fields. -/

namespace Sys2Proof

@[simp] theorem regOf_regBits (r : RegIdx) : regOf (regBits r) = r := by
  apply Fin.ext; simp [regOf, regBits]

@[simp] theorem regBits_regOf (b : BitVec 5) : regBits (regOf b) = b := by
  simp [regOf, regBits]

theorem getElem_place (n lo : Nat) (field : BitVec n) (k : Nat) (h : k < 32) :
    (place n lo field)[k] = (!decide (k < lo) && field.getLsbD (k - lo)) := by
  simp [place, BitVec.getElem_shiftLeft]

/-- The fields of an R-type word are what it was made of. -/
theorem extract_encodeR (rs rt rd : RegIdx) (shamt : BitVec 5) (funct : BitVec 6) :
    let f := extract (encodeR rs rt rd shamt funct)
    f.opcode = 0#6 ∧ f.rs = rs ∧ f.rt = rt ∧ f.rd = rd ∧ f.shamt = shamt ∧ f.funct = funct := by
  have bits (lo n : Nat) (b : BitVec n)
      (h : ∀ k, k < n → (encodeR rs rt rd shamt funct).getLsbD (lo + k) = b.getLsbD k) :
      (encodeR rs rt rd shamt funct).extractLsb' lo n = b := by
    ext k hk
    simpa [BitVec.getLsbD_eq_getElem hk] using h k hk
  refine ⟨?_, ?_, ?_, ?_, ?_, ?_⟩
  · refine bits 26 6 _ fun k hk => ?_
    interval_cases k <;> simp [encodeR, getElem_place]
  · refine (congrArg regOf (bits 21 5 (regBits rs) fun k hk => ?_)).trans (regOf_regBits rs)
    interval_cases k <;> simp [encodeR, getElem_place]
  · refine (congrArg regOf (bits 16 5 (regBits rt) fun k hk => ?_)).trans (regOf_regBits rt)
    interval_cases k <;> simp [encodeR, getElem_place]
  · refine (congrArg regOf (bits 11 5 (regBits rd) fun k hk => ?_)).trans (regOf_regBits rd)
    interval_cases k <;> simp [encodeR, getElem_place]
  · refine bits 6 5 _ fun k hk => ?_
    interval_cases k <;> simp [encodeR, getElem_place]
  · refine bits 0 6 _ fun k hk => ?_
    interval_cases k <;> simp [encodeR, getElem_place]

/-- The fields of an I-type word are what it was made of. -/
theorem extract_encodeI (op : BitVec 6) (rs rt : RegIdx) (imm : Imm16) :
    let f := extract (encodeI op rs rt imm)
    f.opcode = op ∧ f.rs = rs ∧ f.rt = rt ∧ f.imm = imm := by
  have bits (lo n : Nat) (b : BitVec n)
      (h : ∀ k, k < n → (encodeI op rs rt imm).getLsbD (lo + k) = b.getLsbD k) :
      (encodeI op rs rt imm).extractLsb' lo n = b := by
    ext k hk
    simpa [BitVec.getLsbD_eq_getElem hk] using h k hk
  refine ⟨?_, ?_, ?_, ?_⟩
  · refine bits 26 6 _ fun k hk => ?_
    interval_cases k <;> simp [encodeI, getElem_place]
  · refine (congrArg regOf (bits 21 5 (regBits rs) fun k hk => ?_)).trans (regOf_regBits rs)
    interval_cases k <;> simp [encodeI, getElem_place]
  · refine (congrArg regOf (bits 16 5 (regBits rt) fun k hk => ?_)).trans (regOf_regBits rt)
    interval_cases k <;> simp [encodeI, getElem_place]
  · refine bits 0 16 _ fun k hk => ?_
    interval_cases k <;> simp [encodeI, getElem_place]

/-- A word with opcode 0 is put together again from its R-type fields. -/
theorem encodeR_extract (w : Word) (h : (extract w).opcode = 0#6) :
    encodeR (extract w).rs (extract w).rt (extract w).rd (extract w).shamt (extract w).funct = w := by
  have hop (k : Nat) (hk : k < 6) : w.getLsbD (26 + k) = false := by
    have := congrArg (fun b : BitVec 6 => b.getLsbD k) h
    simpa [extract, hk] using this
  apply BitVec.eq_of_getLsbD_eq
  intro k hk
  have h0 := hop 0 (by decide); have h1 := hop 1 (by decide); have h2 := hop 2 (by decide)
  have h3 := hop 3 (by decide); have h4 := hop 4 (by decide); have h5 := hop 5 (by decide)
  interval_cases k <;> simp_all [encodeR, getElem_place, extract]

/-- A word is put together again from its I-type fields. -/
theorem encodeI_extract (w : Word) :
    encodeI (extract w).opcode (extract w).rs (extract w).rt (extract w).imm = w := by
  apply BitVec.eq_of_getLsbD_eq
  intro k hk
  interval_cases k <;> simp [encodeI, getElem_place, extract]

/-! ## Fields as masked bits -/

theorem opcode_eq_iff_mask (w : Word) (op : BitVec 6) :
    (extract w).opcode = op ↔ w &&& 0xFC000000#32 = op.setWidth 32 <<< 26 := by
  constructor
  · rintro rfl
    apply BitVec.eq_of_getLsbD_eq
    intro k hk
    interval_cases k <;> simp [extract]
  · intro h
    apply BitVec.eq_of_getLsbD_eq
    intro k hk
    have := congrArg (fun b : Word => b.getLsbD (26 + k)) h
    interval_cases k <;> simpa [extract] using this

theorem opcode_eq_iff_shift (w : Word) (op : BitVec 6) :
    w >>> 26 = op.setWidth 32 ↔ (extract w).opcode = op := by
  constructor
  · intro h
    apply BitVec.eq_of_getLsbD_eq
    intro k hk
    have := congrArg (fun b : Word => b.getLsbD k) h
    interval_cases k <;> simpa [extract] using this
  · rintro rfl
    apply BitVec.eq_of_getLsbD_eq
    intro k hk
    interval_cases k <;> simp [extract]

theorem funct_eq_iff_mask (w : Word) (fn : BitVec 6) :
    w &&& 0x3F#32 = fn.setWidth 32 ↔ (extract w).funct = fn := by
  constructor
  · intro h
    apply BitVec.eq_of_getLsbD_eq
    intro k hk
    have := congrArg (fun b : Word => b.getLsbD k) h
    interval_cases k <;> simpa [extract] using this
  · rintro rfl
    apply BitVec.eq_of_getLsbD_eq
    intro k hk
    interval_cases k <;> simp [extract]

theorem opcode_funct_eq_iff_mask (w : Word) (fn : BitVec 6) :
    ((extract w).opcode = 0#6 ∧ (extract w).funct = fn) ↔ w &&& 0xFC00003F#32 = fn.setWidth 32 := by
  rw [← opcode_eq_iff_shift, ← funct_eq_iff_mask]
  constructor
  · rintro ⟨h, h'⟩
    apply BitVec.eq_of_getLsbD_eq
    intro k hk
    have h0 := congrArg (fun b : Word => b.getLsbD (k - 26)) h
    have h1 := congrArg (fun b : Word => b.getLsbD k) h'
    clear h h'
    interval_cases k <;> simp at h0 h1 ⊢ <;> assumption
  · intro h
    constructor
    · apply BitVec.eq_of_getLsbD_eq
      intro k hk
      have := congrArg (fun b : Word => b.getLsbD (26 + k)) h
      clear h
      interval_cases k <;> simp at this ⊢ <;> assumption
    · apply BitVec.eq_of_getLsbD_eq
      intro k hk
      have := congrArg (fun b : Word => b.getLsbD k) h
      clear h
      interval_cases k <;> simp at this ⊢ <;> assumption

end Sys2Proof
end

