-- ==== Sys2Proof/Laws/Format.lean ====
section
/-! SUPPORT. The formatter's small lemmas: the word line character by character, digits, printing. -/

namespace Sys2Proof.Machine

@[simp] theorem toList_grp4 (w : Word) : (grp4 w).toList = grp4Chars w := by simp [grp4]

/-- The word line written out. -/
theorem grp4Chars_eq (w : Word) :
    grp4Chars w =
      [bitChar (w.getLsbD 31), bitChar (w.getLsbD 30), bitChar (w.getLsbD 29), bitChar (w.getLsbD 28), ' ',
       bitChar (w.getLsbD 27), bitChar (w.getLsbD 26), bitChar (w.getLsbD 25), bitChar (w.getLsbD 24), ' ',
       bitChar (w.getLsbD 23), bitChar (w.getLsbD 22), bitChar (w.getLsbD 21), bitChar (w.getLsbD 20), ' ',
       bitChar (w.getLsbD 19), bitChar (w.getLsbD 18), bitChar (w.getLsbD 17), bitChar (w.getLsbD 16), ' ',
       bitChar (w.getLsbD 15), bitChar (w.getLsbD 14), bitChar (w.getLsbD 13), bitChar (w.getLsbD 12), ' ',
       bitChar (w.getLsbD 11), bitChar (w.getLsbD 10), bitChar (w.getLsbD 9), bitChar (w.getLsbD 8), ' ',
       bitChar (w.getLsbD 7), bitChar (w.getLsbD 6), bitChar (w.getLsbD 5), bitChar (w.getLsbD 4), ' ',
       bitChar (w.getLsbD 3), bitChar (w.getLsbD 2), bitChar (w.getLsbD 1), bitChar (w.getLsbD 0)] := rfl

theorem bitChar_cases (b : Bool) : bitChar b = '0' ∨ bitChar b = '1' := by cases b <;> simp [bitChar]

/-- Every character of a word line is a binary digit or a space. -/
theorem mem_grp4Chars (w : Word) : ∀ c ∈ grp4Chars w, c = '0' ∨ c = '1' ∨ c = ' ' := by
  rw [grp4Chars_eq]
  simp only [List.forall_mem_cons]
  simp only [List.not_mem_nil, false_imp_iff, implies_true, and_true]
  simp only [or_assoc.symm, bitChar_cases, true_or, or_true, and_true]

/-- The digit of a value below 16 stands at that place of the digit list. -/
theorem idxOf_hexDigit (d : Nat) (h : d < 16) :
    hexDigit d ∈ "0123456789ABCDEF".toList ∧ "0123456789ABCDEF".toList.idxOf (hexDigit d) = d := by
  revert d; decide

/-- A decimal spelling that begins with `0` is the spelling of zero. -/
theorem toDigits_head_zero (n : Nat) (h : (Nat.toDigits 10 n).head? = some '0') : Nat.toDigits 10 n = ['0'] := by
  induction n using Nat.strongRecOn with
  | _ n ih =>
    by_cases hn : n < 10
    · rw [Nat.toDigits_of_lt_base hn] at h ⊢
      interval_cases n <;> simp [Nat.digitChar] at h ⊢
    · rw [Nat.toDigits_of_base_le (by omega) (by omega),
        List.head?_append_of_ne_nil _ (Nat.toDigits_ne_nil (n := n / 10) (b := 10))] at h
      have value : Nat.ofDigitChars 10 (Nat.toDigits 10 (n / 10)) 0 = n / 10 :=
        Nat.ofDigitChars_toDigits (by omega) (by omega)
      rw [ih (n / 10) (by omega) h] at value
      simp [Nat.ofDigitChars] at value
      omega

@[simp] theorem printedText_append (a b : List ConsoleItem) :
    printedText (a ++ b) = printedText a ++ printedText b := by
  simp [printedText]

end Sys2Proof.Machine
end

