-- ==== Sys2Proof/Laws/HostContract.lean ====
section
/-! SUPPORT. The host's reading of a line: its character classes, and binary digits as bits of a number. -/

namespace Sys2Proof.Machine

theorem isSpace_iff (c : Char) : isSpace c = true ↔ c ∈ [' ', '\t', '\n', '\x0b', '\x0c', '\r'] := by
  have code (n : Nat) (d : Char) (hd : d.toNat = n) : c.toNat = n ↔ c = d := by
    rw [← hd]; exact ⟨fun e => Char.toNat_inj.1 e, fun e => by rw [e]⟩
  simp only [isSpace, List.contains_cons, List.contains_nil, Bool.or_eq_true, beq_iff_eq, List.mem_cons,
    List.not_mem_nil, code 32 ' ' rfl, code 9 '\t' rfl, code 10 '\n' rfl, code 11 '\x0b' rfl, code 12 '\x0c' rfl,
    code 13 '\r' rfl, Bool.false_eq_true]

theorem isBit_iff (c : Char) : isBit c = true ↔ c = '0' ∨ c = '1' := by simp [isBit]

theorem classify_eq (text : String) :
    classify text =
      if text.toList.all (fun c => isBit c || isSpace c) then
        if (text.toList.filter (fun c => !isSpace c)).length = 32 then
          .word (BitVec.ofNat 32 (bitsToNat (text.toList.filter (fun c => !isSpace c))))
        else .wrongBitCount
      else .invalidCharacter := rfl

theorem bitsToNat_append (a : List Char) (c : Char) :
    bitsToNat (a ++ [c]) = 2 * bitsToNat a + (if c == '1' then 1 else 0) := by
  simp [bitsToNat]

/-- The `k`-th digit from the left is the bit of that weight. -/
theorem bitsToNat_testBit (cs : List Char) (k : Nat) (hk : k < cs.length) :
    (bitsToNat cs).testBit (cs.length - 1 - k) = (cs[k] == '1') := by
  induction cs using List.reverseRecOn with
  | nil => simp at hk
  | append_singleton a c ih =>
    rw [bitsToNat_append]
    simp only [List.length_append, List.length_singleton] at hk ⊢
    by_cases h : k < a.length
    · rw [List.getElem_append_left h, ← ih h,
        show a.length + 1 - 1 - k = (a.length - 1 - k) + 1 by omega, Nat.testBit_succ]
      congr 1; split <;> omega
    · have : k = a.length := by omega
      subst this
      simp only [List.getElem_append_right (Nat.le_refl _), Nat.sub_self, List.getElem_singleton, Nat.add_sub_cancel,
        Nat.testBit_zero]
      cases hc : (c == '1') <;> simp

end Sys2Proof.Machine
end

