-- ==== Sys2Proof/Laws/Operands.lean ====
section
/-! SUPPORT. The extender and the ALU's wrap-around as exact arithmetic: the bridge between the model's bit vectors and the
integers the statements speak of. -/

namespace Sys2Proof.Machine

theorem toInt_ext_sext (imm : Imm16) : (ext .sext imm).toInt = imm.toInt := by
  simp [ext, sext32, BitVec.toInt_signExtend_of_le]

theorem ext_zext_eq_ofNat (imm : Imm16) : ext .zext imm = BitVec.ofNat 32 imm.toNat := by
  simp [ext, zext32]

theorem ext_upper_eq_ofNat (imm : Imm16) : ext .upper imm = BitVec.ofNat 32 (imm.toNat * 65536) := by
  apply BitVec.eq_of_toNat_eq
  simp [ext, zext32, Nat.shiftLeft_eq]

/-- Computing exactly and then narrowing is the wrapped sum. -/
theorem ofInt_toInt_add (a b : Word) : BitVec.ofInt 32 (a.toInt + b.toInt) = a + b := by
  rw [BitVec.ofInt_add]; simp

/-- Computing exactly and then narrowing is the wrapped difference. -/
theorem ofInt_toInt_sub (a b : Word) : BitVec.ofInt 32 (a.toInt - b.toInt) = a - b := by
  apply BitVec.eq_of_toInt_eq; simp [BitVec.toInt_sub]

end Sys2Proof.Machine
end

