-- ==== Sys2Proof/Laws/State.lean ====
section
/-! SUPPORT. One lemma per field and update of State, and the register file's read-after-write laws. -/

namespace Sys2Proof.Machine

variable (s : State) (i j : RegIdx) (v : Word) (line : String) (lines : List String)

@[simp] theorem setReg_regName : (s.setReg i v).regName = s.regName := rfl
@[simp] theorem setReg_host : (s.setReg i v).host = s.host := rfl
@[simp] theorem setReg_console : (s.setReg i v).console = s.console := rfl
@[simp] theorem setReg_x : (s.setReg i v).x = s.x.set i v := rfl

@[simp] theorem emit_x : (s.emit line).x = s.x := rfl
@[simp] theorem emit_regName : (s.emit line).regName = s.regName := rfl
@[simp] theorem emit_host : (s.emit line).host = s.host := rfl
@[simp] theorem emit_console : (s.emit line).console = s.console ++ [.line line] := rfl

@[simp] theorem emitAll_x : (s.emitAll lines).x = s.x := rfl
@[simp] theorem emitAll_regName : (s.emitAll lines).regName = s.regName := rfl
@[simp] theorem emitAll_host : (s.emitAll lines).host = s.host := rfl
@[simp] theorem emitAll_console : (s.emitAll lines).console = s.console ++ lines.map .line := rfl

@[simp] theorem reg_eq : s.reg i = s.x[i] := rfl

@[simp] theorem writePort_false (x : RegFile) : writePort x false i v = x := rfl
@[simp] theorem writePort_true (x : RegFile) : writePort x true i v = x.set i v := rfl

/-- Read after write of the same register. -/
@[simp] theorem regFile_set_same (x : RegFile) : (x.set i v)[i] = v := by simp

/-- A write leaves every other register. -/
theorem regFile_set_other (x : RegFile) (h : j ≠ i) : (x.set i v)[j] = x[j] := by
  have : (i : Nat) ≠ j := fun e => h (Fin.ext e.symm)
  simp [this]

end Sys2Proof.Machine
end

