-- ==== Sys2Proof/Laws/Ops.lean ====
section
/-! SUPPORT. What each shared operation can do, said once, and from it what an instruction and a step can do. -/

namespace Sys2Proof.Machine

variable (s t : State)

/-- The writing template answers a next state that meets the frame of a write. -/
theorem writeAndReport_spec (dst : RegIdx) (v : Word) (line : String) :
    ∃ t, writeAndReport dst v line s = .next t ∧ WritesAndReports dst v line s t :=
  ⟨_, rfl, by simp, fun j h => by simpa using regFile_set_other dst j v s.x h, rfl, rfl, rfl⟩

/-- The printing template answers a next state that meets the frame of a print. -/
theorem reportOnly_spec (line : String) : ∃ t, reportOnly line s = .next t ∧ OnlyReports line s t :=
  ⟨_, rfl, rfl, rfl, rfl, rfl⟩

/-- What an instruction can do: write its one destination and emit a line, or only emit a line. -/
theorem exec_cases (i : Instr) :
    (∃ dst v line, writeOf i = some dst ∧ exec i s = writeAndReport dst v line s) ∨
      (∃ line, writeOf i = none ∧ exec i s = reportOnly line s) := by
  cases i
  case beq | bne | lw | sw => exact .inr ⟨_, rfl, rfl⟩
  all_goals exact .inl ⟨_, _, _, rfl, rfl⟩

/-- What a decoded outcome can do. -/
theorem execute_cases (d : Decoded) :
    (∃ i dst v line, d = .instr i ∧ writeOf i = some dst ∧ execute d s = writeAndReport dst v line s) ∨
      (∃ line, execute d s = reportOnly line s) := by
  cases d with
  | instr i =>
    obtain ⟨dst, v, line, hw, he⟩ | ⟨line, -, he⟩ := exec_cases s i
    · exact .inl ⟨i, dst, v, line, rfl, hw, he⟩
    · exact .inr ⟨line, he⟩
  | unknownFunct f => exact .inr ⟨_, rfl⟩
  | unknownOpcode op => exact .inr ⟨_, rfl⟩

/-- A decoded outcome answers a next state, emits exactly one line, and leaves the names and the host's lines. -/
theorem execute_spec (d : Decoded) :
    ∃ t line, execute d s = .next t ∧ t.regName = s.regName ∧ t.host = s.host ∧
      t.console = s.console ++ [.line line] := by
  obtain ⟨i, dst, v, line, -, -, he⟩ | ⟨line, he⟩ := execute_cases s d <;> exact ⟨_, line, he, rfl, rfl, rfl⟩

/-- Two states that agree on the names and on the registers an instruction reads: it does the same to both. -/
theorem exec_agree (i : Instr) (s1 s2 : State) (hn : s1.regName = s2.regName)
    (hr : ∀ r ∈ readsOf i, s1.x[r] = s2.x[r]) :
    (∃ dst v line, writeOf i = some dst ∧ exec i s1 = writeAndReport dst v line s1 ∧
      exec i s2 = writeAndReport dst v line s2) ∨
    (∃ line, writeOf i = none ∧ exec i s1 = reportOnly line s1 ∧ exec i s2 = reportOnly line s2) := by
  have hreg (r) (h : r ∈ readsOf i) : s2.reg r = s1.reg r := (hr r h).symm
  cases i <;> simp only [readsOf, List.mem_cons, List.not_mem_nil, or_false, forall_eq_or_imp, forall_eq] at hreg
  case beq | bne => exact .inr ⟨_, rfl, rfl, by simp only [exec, execBeq, execBne, branchReport, hn, hreg]⟩
  case lw | sw => exact .inr ⟨_, rfl, rfl, by simp only [exec, execLw, execSw, printOnly, hn]⟩
  case lui => exact .inl ⟨_, _, _, rfl, rfl, by simp only [exec, execLui, hn]⟩
  case addi | andi | ori =>
    exact .inl ⟨_, _, _, rfl, rfl, by simp only [exec, execAddi, execAndi, execOri, iTypeLogic, hn, hreg]⟩
  all_goals
    exact .inl ⟨_, _, _, rfl, rfl, by simp only [exec, execAdd, execSub, execAnd, execOr, execSlt, rType, hn, hreg]⟩

/-- Two states that agree on the registers and the names: a decoded outcome does the same to both. -/
theorem execute_agree (d : Decoded) (s1 s2 : State) (hx : s1.x = s2.x) (hn : s1.regName = s2.regName) :
    ∃ t1 t2 line, execute d s1 = .next t1 ∧ execute d s2 = .next t2 ∧ t1.x = t2.x ∧
      t1.regName = s1.regName ∧ t2.regName = s2.regName ∧ t1.host = s1.host ∧ t2.host = s2.host ∧
      t1.console = s1.console ++ [.line line] ∧ t2.console = s2.console ++ [.line line] := by
  cases d with
  | instr i =>
    obtain ⟨dst, v, line, -, e1, e2⟩ | ⟨line, -, e1, e2⟩ := exec_agree i s1 s2 hn (fun r _ => by rw [hx])
    · exact ⟨_, _, line, e1, e2, by simp [hx], rfl, rfl, rfl, rfl, rfl, rfl⟩
    · exact ⟨_, _, line, e1, e2, hx, rfl, rfl, rfl, rfl, rfl, rfl⟩
  | unknownFunct f => exact ⟨_, _, _, rfl, rfl, hx, rfl, rfl, rfl, rfl, rfl, rfl⟩
  | unknownOpcode op => exact ⟨_, _, _, rfl, rfl, hx, rfl, rfl, rfl, rfl, rfl, rfl⟩

/-- The line an outcome emits is the grammar's line for it, the comparator's report chosen by the outcome. -/
theorem execute_line (d : Decoded) :
    ∃ t report, execute d s = .next t ∧ t.regName = s.regName ∧
      t.console = s.console ++ [.line (decodedLine s.regName report d)] := by
  cases d with
  | unknownFunct f => exact ⟨_, true, rfl, rfl, rfl⟩
  | unknownOpcode op => exact ⟨_, true, rfl, rfl, rfl⟩
  | instr i =>
    cases i
    case beq rs rt imm => exact ⟨_, taken .eq (s.reg rs) (s.reg rt), rfl, rfl, rfl⟩
    case bne rs rt imm => exact ⟨_, taken .ne (s.reg rs) (s.reg rt), rfl, rfl, rfl⟩
    all_goals exact ⟨_, true, rfl, rfl, rfl⟩

@[simp] theorem withDump_x (b : Bool) : (withDump b s).x = s.x := by cases b <;> rfl
@[simp] theorem withDump_regName (b : Bool) : (withDump b s).regName = s.regName := by cases b <;> rfl
@[simp] theorem withDump_host (b : Bool) : (withDump b s).host = s.host := by cases b <;> rfl

theorem withDump_console (b : Bool) :
    (withDump b s).console = s.console ++ (if b then dump s.regName s.x else []).map .line := by
  cases b <;> simp [withDump]

@[simp] theorem andDump_next (b : Bool) : andDump b (.next s) = .next (withDump b s) := rfl

/-- A step of the block on a word: the decoded outcome after the word line, then the dump. -/
theorem stepWord_of_execute {w : Word} {b : Bool} (h : execute (decode w) (s.emit (grp4 w)) = .next t) :
    stepWord w b s = .next (withDump b t) := by
  rw [stepWord, h]; rfl

/-- What a step of the block on a word can do: emit the word line and one decoded line, then the dump. -/
theorem stepWord_spec (w : Word) (b : Bool) :
    ∃ t line, execute (decode w) (s.emit (grp4 w)) = .next t ∧ t.regName = s.regName ∧ t.host = s.host ∧
      t.console = s.console ++ [.line (grp4 w), .line line] ∧ stepWord w b s = .next (withDump b t) := by
  obtain ⟨t, line, h, hn, hh, hc⟩ := execute_spec (s.emit (grp4 w)) (decode w)
  exact ⟨t, line, h, hn, hh, by simp [hc], stepWord_of_execute s t h⟩

/-- With no line supplied the machine is idle. -/
theorem step_idle (h : s.host = []) : step s = .next s := by simp [step, stepHost, h]

/-- With a line supplied, the step is the handling of that line. -/
theorem step_line {l : HostLine} {rest : List HostLine} (h : s.host = l :: rest) :
    step s = stepLine l { s with host := rest } := by simp [step, stepHost, h]

theorem stepLine_word {l : HostLine} {w : Word} (h : classify l.text = .word w) :
    stepLine l s = stepWord w l.dumpEn s := by simp [stepLine, h]

theorem stepLine_skip {l : HostLine} (h : classify l.text = .wrongBitCount) :
    stepLine l s = .next { s with console := s.console ++ [.skipReport l.text] } := by simp [stepLine, h]

theorem stepLine_fatal {l : HostLine} (h : classify l.text = .invalidCharacter) :
    stepLine l s = .fault (.invalidCharacter l.text) := by simp [stepLine, h]

end Sys2Proof.Machine
end

