-- ==== Sys2Proof/Laws/PerInstr.lean ====
section
/-! SUPPORT. The family EncodeMatches: the word the encoder gives an instruction carries the match value of that
instruction's own row of the opcode maps (spec 30_encoding.md R69, R70). -/

namespace Sys2Proof.Laws.EncodeMatches

/-- The row of the opcode table that bears the instruction's mnemonic covers its word. -/
def Statement (i : Instr) : Prop := ∃ r ∈ opcodeTable, r.mnemonic = i.mnemonic ∧ r.covers (encode i) = true

/-- The masked bits of an R-type word. -/
theorem encodeR_masked (rs rt rd : RegIdx) (shamt : BitVec 5) (funct : BitVec 6) :
    encodeR rs rt rd shamt funct &&& 0xFC00003F#32 = funct.setWidth 32 := by
  apply BitVec.eq_of_getLsbD_eq
  intro k hk
  interval_cases k <;> simp [encodeR, getElem_place]

/-- The masked bits of an I-type word. -/
theorem encodeI_masked (op : BitVec 6) (rs rt : RegIdx) (imm : Imm16) :
    encodeI op rs rt imm &&& 0xFC000000#32 = op.setWidth 32 <<< 26 := by
  apply BitVec.eq_of_getLsbD_eq
  intro k hk
  interval_cases k <;> simp [encodeI, getElem_place]

/-- The statement for an R-type instruction, from its row. -/
theorem of_encodeR {i : Instr} {rs rt rd : RegIdx} {shamt : BitVec 5} (funct : BitVec 6)
    (he : encode i = encodeR rs rt rd shamt funct)
    (hrow : (⟨i.mnemonic, 0xFC00003F#32, funct.setWidth 32⟩ : OpRow) ∈ opcodeTable) : Statement i :=
  ⟨_, hrow, rfl, by simp [OpRow.covers, he, encodeR_masked]⟩

/-- The statement for an I-type instruction, from its row. -/
theorem of_encodeI {i : Instr} {rs rt : RegIdx} {imm : Imm16} (op : BitVec 6)
    (he : encode i = encodeI op rs rt imm)
    (hrow : (⟨i.mnemonic, 0xFC000000#32, op.setWidth 32 <<< 26⟩ : OpRow) ∈ opcodeTable) : Statement i :=
  ⟨_, hrow, rfl, by simp [OpRow.covers, he, encodeI_masked]⟩

variable (rd rs rt : RegIdx) (shamt : BitVec 5) (imm : Imm16)

theorem add : Statement (.add rd rs rt shamt) := of_encodeR 0x20#6 rfl (by simp [opcodeTable, Instr.mnemonic])
theorem sub : Statement (.sub rd rs rt shamt) := of_encodeR 0x22#6 rfl (by simp [opcodeTable, Instr.mnemonic])
theorem and : Statement (.and rd rs rt shamt) := of_encodeR 0x24#6 rfl (by simp [opcodeTable, Instr.mnemonic])
theorem or : Statement (.or rd rs rt shamt) := of_encodeR 0x25#6 rfl (by simp [opcodeTable, Instr.mnemonic])
theorem slt : Statement (.slt rd rs rt shamt) := of_encodeR 0x2A#6 rfl (by simp [opcodeTable, Instr.mnemonic])
theorem beq : Statement (.beq rs rt imm) := of_encodeI 0x04#6 rfl (by simp [opcodeTable, Instr.mnemonic])
theorem bne : Statement (.bne rs rt imm) := of_encodeI 0x05#6 rfl (by simp [opcodeTable, Instr.mnemonic])
theorem addi : Statement (.addi rt rs imm) := of_encodeI 0x08#6 rfl (by simp [opcodeTable, Instr.mnemonic])
theorem andi : Statement (.andi rt rs imm) := of_encodeI 0x0C#6 rfl (by simp [opcodeTable, Instr.mnemonic])
theorem ori : Statement (.ori rt rs imm) := of_encodeI 0x0D#6 rfl (by simp [opcodeTable, Instr.mnemonic])
theorem lui : Statement (.lui rt rs imm) := of_encodeI 0x0F#6 rfl (by simp [opcodeTable, Instr.mnemonic])
theorem lw : Statement (.lw rt rs imm) := of_encodeI 0x23#6 rfl (by simp [opcodeTable, Instr.mnemonic])
theorem sw : Statement (.sw rt rs imm) := of_encodeI 0x2B#6 rfl (by simp [opcodeTable, Instr.mnemonic])

end Sys2Proof.Laws.EncodeMatches
end

