-- ==== Sys2Proof/Laws/Run.lean ====
section
/-! SUPPORT. Runs: one step at a time, and the independence of a line's handling from the lines after it. -/

namespace Sys2Proof.Machine

@[simp] theorem runSteps_zero (s : State) : runSteps 0 s = .next s := rfl

/-- A run of `k + 1` steps is a step and then a run of `k`. -/
theorem runSteps_succ (k : Nat) (s : State) :
    runSteps (k + 1) s =
      match step s with
      | .next t => runSteps k t
      | .fault f => .fault f
      | .refused r => .refused r := by
  have e : Host.Core.step Sys2Proof.core s = step s := rfl
  simp only [runSteps, Host.Core.run, e]
  cases step s <;> rfl

/-- A decoded outcome does the same whatever lines follow. -/
theorem execute_set_host (d : Decoded) (s t : State) (b : List HostLine) (h : execute d s = .next t) :
    execute d { s with host := b } = .next { t with host := b } := by
  cases d with
  | instr i => cases i <;> (injection h with h; subst h; rfl)
  | unknownFunct f => injection h with h; subst h; rfl
  | unknownOpcode op => injection h with h; subst h; rfl

/-- Handling a line takes no line off the stream. -/
theorem stepLine_host (l : HostLine) (s t : State) (h : stepLine l s = .next t) : t.host = s.host := by
  rcases hc : classify l.text with w | _ | _
  · rw [stepLine_word _ hc] at h
    obtain ⟨u, line, -, -, hh, -, e⟩ := stepWord_spec s w l.dumpEn
    rw [e] at h; injection h with h; subst h; simp [hh]
  · rw [stepLine_skip _ hc] at h; injection h with h; subst h; rfl
  · rw [stepLine_fatal _ hc] at h; cases h

/-- Handling a line does the same whatever lines follow. -/
theorem stepLine_set_host (l : HostLine) (s t : State) (b : List HostLine) (h : stepLine l s = .next t) :
    stepLine l { s with host := b } = .next { t with host := b } := by
  rcases hc : classify l.text with w | _ | _
  · rw [stepLine_word _ hc] at h ⊢
    obtain ⟨u, -, e, -, -, -, -⟩ := stepWord_spec s w l.dumpEn
    rw [stepWord_of_execute _ _ e] at h; injection h with h; subst h
    rw [stepWord_of_execute { s with host := b } { u with host := b } (execute_set_host _ _ _ b e)]
    cases l.dumpEn <;> rfl
  · rw [stepLine_skip _ hc] at h ⊢; injection h with h; subst h; rfl
  · rw [stepLine_fatal _ hc] at h; cases h

/-- A run over a first line and more goes on from what the first line leaves. -/
theorem runSteps_cons (s t : State) (l : HostLine) (a : List HostLine) :
    runSteps (a.length + 1) { s with host := l :: a } = .next t ↔
      ∃ u, stepLine l { s with host := a } = .next u ∧ runSteps a.length u = .next t := by
  rw [runSteps_succ, step_line _ (l := l) (rest := a) rfl]
  rcases stepLine l { s with host := a } with u | f | r <;> simp

end Sys2Proof.Machine
end

