-- ==== Sys2Proof/Tests/Slice0.lean ====
section
/-! SUPPORT. Tests of single steps against the spec's own vectors (95_test_vectors.md) and worked examples, decoding of words
written out from the patterns of R71, the smoke tests of WellFormed, and a witness for the hypotheses of every statement that
has some. -/

namespace Sys2Proof.Tests

open Sys2Proof.Machine

/-! ## Helpers -/

/-- The next state, if there is one. -/
def nextState : Result → Option State
  | .next t => some t
  | .fault _ => none
  | .refused _ => none

/-- The fault, if there is one. -/
def faultOf : Result → Option Fault
  | .next _ => none
  | .fault f => some f
  | .refused _ => none

/-- The reset state with some registers set. -/
def withRegs (rs : List (RegIdx × Word)) : State := rs.foldl (fun s r => s.setReg r.1 r.2) State.reset

/-- One step from `s` on the word of value `w`. -/
def after (s : State) (w : Nat) : Option State := nextState (step (s.withFetchWord 32 w))

/-- Register `i` after that step. -/
def regAfter (s : State) (w : Nat) (i : RegIdx) : Option Word := (after s w).map (fun t => t.x[i])

/-- The decoded line of that step, where the step changed no register. -/
def printOnlyLine (s : State) (w : Nat) : Option String :=
  (after s w).bind fun t => if t.x = s.x then t.textOut.getLast? else none

/-- The decoded line of that step. -/
def lineAfter (s : State) (w : Nat) : Option String := (after s w).bind fun t => t.textOut.getLast?

/-! ## WellFormed: an ill-formed term for each check -/

/-- 0x20 selects `add`, so it is no unknown funct. -/
theorem test_recognised_funct_is_not_unknown : (Decoded.unknownFunct 0x20#6).wellFormed = false := by decide
/-- 0x2B selects `sw`, so it is no unknown opcode. -/
theorem test_recognised_opcode_is_not_unknown : (Decoded.unknownOpcode 0x2B#6).wellFormed = false := by decide
/-- 0x00 selects the secondary map, so it is no unknown opcode. -/
theorem test_rtype_opcode_is_not_unknown : (Decoded.unknownOpcode 0x00#6).wellFormed = false := by decide
/-- `REG_NAME(0)` is `$zero`. -/
theorem test_other_name_of_register_zero : regNamesWellFormed (defaultRegName.set 0 "$r0") = false := by decide
theorem test_default_names_well_formed : regNamesWellFormed defaultRegName = true := by decide

/-! ## Decoding: words written out from R71, operand fields from 95_test_vectors.md section 2 -/

theorem test_decode_add :
    decode 0b000000_00001_00010_00011_00010_100000#32 = .instr (.add 3 1 2 2#5) := by decide
theorem test_decode_sub : decode 0b000000_00001_00010_00011_00000_100010#32 = .instr (.sub 3 1 2 0#5) := by decide
theorem test_decode_and : decode 0b000000_00001_00010_00011_00000_100100#32 = .instr (.and 3 1 2 0#5) := by decide
theorem test_decode_or : decode 0b000000_00001_00010_00011_00000_100101#32 = .instr (.or 3 1 2 0#5) := by decide
theorem test_decode_slt : decode 0b000000_00001_00010_00011_00000_101010#32 = .instr (.slt 3 1 2 0#5) := by decide
theorem test_decode_beq : decode 0b000100_00001_00010_0000000000000100#32 = .instr (.beq 1 2 4#16) := by decide
theorem test_decode_bne : decode 0b000101_00001_00010_1111111111111101#32 = .instr (.bne 1 2 0xFFFD#16) := by decide
theorem test_decode_addi : decode 0b001000_01001_01000_1000000000000000#32 = .instr (.addi 8 9 0x8000#16) := by decide
theorem test_decode_andi : decode 0b001100_01001_01000_0000000011111111#32 = .instr (.andi 8 9 0xFF#16) := by decide
theorem test_decode_ori : decode 0b001101_01001_01000_0001001000110100#32 = .instr (.ori 8 9 0x1234#16) := by decide
theorem test_decode_lui : decode 0b001111_10001_01000_0000000000000001#32 = .instr (.lui 8 17 1#16) := by decide
theorem test_decode_lw : decode 0b100011_11101_01000_1111111111111100#32 = .instr (.lw 8 29 0xFFFC#16) := by decide
theorem test_decode_sw : decode 0b101011_11101_01000_0000000000001000#32 = .instr (.sw 8 29 8#16) := by decide
/-- The all-zero word (2.8 row 1) and the MIPS `jr` word (row 3). -/
theorem test_decode_unknown_funct :
    decode 0x00000000#32 = .unknownFunct 0x00#6 ∧ decode 0x03E00008#32 = .unknownFunct 0x08#6 := by decide
/-- Opcode 0x3F (2.8 row 6) and the MIPS `addiu` word (row 10). -/
theorem test_decode_unknown_opcode :
    decode 0xFC000000#32 = .unknownOpcode 0x3F#6 ∧ decode 0x24080005#32 = .unknownOpcode 0x09#6 := by decide
theorem test_table_word : decodeTableWord 32 0x312800FF = some (.andi 8 9 0xFF#16) := by decide
theorem test_table_word_unknown : decodeTableWord 32 0x0000000C = none := by decide
/-- The extractor on 0xA5A5A5A5 (2.1 row 6). -/
theorem test_extract :
    extract 0xA5A5A5A5#32 = ⟨0x29#6, 13, 5, 20, 22#5, 0x25#6, 0xA5A5#16, 0x1A5A5A5#26⟩ := by decide
theorem test_encode_sw : encode (.sw 8 29 8#16) = 0xAFA80008#32 := by decide
/-- No word is covered by two rows: the rows' common mask bits differ somewhere. -/
theorem test_table_rows_do_not_overlap :
    opcodeTable.Pairwise (fun r q => (r.mtch ^^^ q.mtch) &&& (r.mask &&& q.mask) ≠ 0#32) := by decide

/-! ## R-type (2.4) -/

theorem test_add_wraps : regAfter (withRegs [(1, 0x7FFFFFFF#32), (2, 1#32)]) 0x00221820 3 = some 0x80000000#32 := by
  decide
theorem test_add_writes_zero_register_line :
    regAfter (withRegs [(1, 5#32), (2, 7#32)]) 0x00220020 0 = some 12#32 ∧
      lineAfter (withRegs [(1, 5#32), (2, 7#32)]) 0x00220020 = some "add $zero, $at, $v0" := by decide
theorem test_sub_negative : regAfter (withRegs [(1, 5#32), (2, 7#32)]) 0x00221822 3 = some 0xFFFFFFFE#32 := by decide
theorem test_and : regAfter (withRegs [(1, 0xFF0F#32), (2, 0xFF0#32)]) 0x00221824 3 = some 0xF00#32 := by decide
theorem test_or : regAfter (withRegs [(1, 0xFF0F#32), (2, 0xFF0#32)]) 0x00221825 3 = some 0xFFFF#32 := by decide
theorem test_slt_is_signed :
    regAfter (withRegs [(1, 0x80000000#32), (2, 0x7FFFFFFF#32)]) 0x0022182A 3 = some 1#32 := by decide
theorem test_slt_source_is_destination : regAfter (withRegs [(1, 7#32)]) 0x0021082A 1 = some 0#32 := by decide
/-- The corrected sum of 90_conflicts.md C1. -/
theorem test_add_in_place : regAfter (withRegs [(8, 0x7FFFFFFF#32)]) 0x01084020 8 = some 0xFFFFFFFE#32 := by decide

/-! ## I-type (2.5) -/

theorem test_addi_sign_extends :
    regAfter State.reset 0x20088000 8 = some 0xFFFF8000#32 ∧
      lineAfter State.reset 0x20088000 = some "addi $t0, $zero, -32768" := by decide
theorem test_andi_clears_upper_half :
    regAfter (withRegs [(9, 0xFFFFFFFF#32)]) 0x3128FFFF 8 = some 0xFFFF#32 ∧
      lineAfter (withRegs [(9, 0x12345678#32)]) 0x312800FF = some "andi $t0, $t1, 0x00FF" := by decide
theorem test_ori_keeps_upper_half :
    regAfter (withRegs [(9, 0xABCD0000#32)]) 0x35281234 8 = some 0xABCD1234#32 := by decide
theorem test_lui_ignores_rs :
    regAfter (withRegs [(8, 0xFFFFFFFF#32)]) 0x3E280001 8 = some 0x00010000#32 ∧
      lineAfter State.reset 0x3E280001 = some "lui $t0, 0x0001" := by decide

/-! ## Loads, stores, branches, unrecognised words (2.6 to 2.8) -/

theorem test_lw_prints : printOnlyLine (withRegs [(8, 7#32)]) 0x8FA8FFFC = some "lw $t0, -4($sp)" := by decide
theorem test_sw_prints : printOnlyLine State.reset 0xAC1F8000 = some "sw $ra, -32768($zero)" := by decide
theorem test_beq_taken :
    printOnlyLine (withRegs [(1, 3#32), (2, 4#32)]) 0x1021FFFF = some "beq $at, $at, -1 (branch taken)" := by decide
theorem test_beq_not_taken :
    printOnlyLine (withRegs [(1, 3#32), (2, 4#32)]) 0x10220004 = some "beq $at, $v0, 4 (branch not taken)" := by decide
theorem test_bne_taken :
    printOnlyLine (withRegs [(1, 0x80000000#32)]) 0x14228000 = some "bne $at, $v0, -32768 (branch taken)" := by decide
theorem test_bne_not_taken :
    printOnlyLine (withRegs [(1, 3#32)]) 0x14217FFF = some "bne $at, $at, 32767 (branch not taken)" := by decide
theorem test_unknown_funct : printOnlyLine State.reset 0x0000000C = some "Unknown R-type funct: 0x0C" := by decide
theorem test_unknown_opcode :
    printOnlyLine (withRegs [(5, 9#32)]) 0xFC000000 = some "Unknown opcode: 0x3F" := by decide

/-! ## Formatter (2.9) -/

theorem test_grp4 : grp4 0x00221020#32 = "0000 0000 0010 0010 0001 0000 0010 0000" := by decide
theorem test_dec_extremes : dec (-2147483648) = "-2147483648" ∧ dec 2147483647 = "2147483647" ∧ dec 0 = "0" := by decide
theorem test_hex : hex2 0x2A#6 = "2A" ∧ hex2 0x0C#6 = "0C" ∧ hex4 0x00FF#16 = "00FF" ∧ hex4 0xFFFF#16 = "FFFF" := by
  decide
/-- The dump of 2.9. -/
theorem test_dump :
    dump defaultRegName
      (withRegs [(0, 5#32), (1, 0xFFFFFFFF#32), (8, 0x80000000#32), (31, 0x7FFFFFFF#32)]).x =
      ["$zero = 5\t$at = -1\t$v0 = 0\t$v1 = 0", "$a0 = 0\t$a1 = 0\t$a2 = 0\t$a3 = 0",
       "$t0 = -2147483648\t$t1 = 0\t$t2 = 0\t$t3 = 0", "$t4 = 0\t$t5 = 0\t$t6 = 0\t$t7 = 0",
       "$s0 = 0\t$s1 = 0\t$s2 = 0\t$s3 = 0", "$s4 = 0\t$s5 = 0\t$s6 = 0\t$s7 = 0",
       "$t8 = 0\t$t9 = 0\t$k0 = 0\t$k1 = 0", "$gp = 0\t$sp = 0\t$fp = 0\t$ra = 2147483647"] := by decide

/-! ## Host lines (L1-7, P5) -/

theorem test_line_31_digits : classify "0010000000001000000000000000011" = .wrongBitCount := by decide
theorem test_line_invalid : classify "001000000000100000000000000000x1" = .invalidCharacter := by decide
theorem test_line_with_spaces : classify "0010 0000 0000 1000 0000 0000 0000 0011" = .word 0x20080003#32 := by decide
/-- R222: a line with both faults is fatal. -/
theorem test_line_both_faults : classify "0x1" = .invalidCharacter := by decide
theorem test_line_empty : classify " \t\r\n" = .wrongBitCount := by decide

/-! ## Witnesses -/

/-- The line of the word 0x00221820 (`add $v1, $at, $v0`), with dump. -/
def addLine : HostLine := ⟨"0000 0000 0010 0010 0001 1000 0010 0000", true⟩
/-- A line of 31 digits. -/
def shortLine : HostLine := ⟨"0010000000001000000000000000011", false⟩
/-- A line with an invalid character. -/
def fatalLine : HostLine := ⟨"001000000000100000000000000000x1", false⟩
/-- The line of the all-zero word. -/
def zeroLine : HostLine := ⟨"00000000000000000000000000000000", false⟩
/-- The reset state with these lines to supply. -/
def supplied (lines : List HostLine) : State := { State.reset with host := lines }

theorem witness_wellFormed_instr : (Instr.lui 31 31 0xFFFF#16).wellFormed = true := by decide
theorem witness_wellFormed_outcomes :
    (Decoded.unknownFunct 0x21#6).wellFormed = true ∧ (Decoded.unknownFunct 0x3F#6).wellFormed = true ∧
      (Decoded.unknownOpcode 0x01#6).wellFormed = true ∧ (Decoded.unknownOpcode 0x3F#6).wellFormed = true := by decide
theorem witness_decoded_word : decode 0x002218A0#32 = .instr (.add 3 1 2 2#5) := by decide
theorem witness_unused_shamt :
    0x00221820#32 >>> 26 = 0#32 ∧ (0x00221820#32 ^^^ 0x00221FE0#32) &&& 0xFFFFF83F#32 = 0#32 := by decide
theorem witness_unused_rs_of_lui :
    0x3C081234#32 >>> 26 = 0x0F#32 ∧ (0x3C081234#32 ^^^ 0x3FE81234#32) &&& 0xFC1FFFFF#32 = 0#32 := by decide
theorem witness_word_patterns :
    0x00221820#32 &&& 0xFC00003F#32 = 0x20#32 ∧ 0x00221822#32 &&& 0xFC00003F#32 = 0x22#32 ∧
    0x00221824#32 &&& 0xFC00003F#32 = 0x24#32 ∧ 0x00221825#32 &&& 0xFC00003F#32 = 0x25#32 ∧
    0x0022182A#32 &&& 0xFC00003F#32 = 0x2A#32 ∧ 0x2008FFFF#32 &&& 0xFC000000#32 = 0x20000000#32 ∧
    0x312800FF#32 &&& 0xFC000000#32 = 0x30000000#32 ∧ 0x3408FFFF#32 &&& 0xFC000000#32 = 0x34000000#32 ∧
    0x3C081234#32 &&& 0xFC000000#32 = 0x3C000000#32 ∧ 0x8FA8FFFC#32 &&& 0xFC000000#32 = 0x8C000000#32 ∧
    0xAFA80008#32 &&& 0xFC000000#32 = 0xAC000000#32 ∧ 0x10220004#32 &&& 0xFC000000#32 = 0x10000000#32 ∧
    0x1422FFFD#32 &&& 0xFC000000#32 = 0x14000000#32 := by decide
theorem witness_dump_indices_first_line :
    (0 : RegIdx).val = 4 * (0 : Fin 8).val ∧ (1 : RegIdx).val = (0 : RegIdx).val + 1 ∧
      (2 : RegIdx).val = (0 : RegIdx).val + 2 ∧ (3 : RegIdx).val = (0 : RegIdx).val + 3 := by decide
theorem witness_dump_indices_last_line :
    (28 : RegIdx).val = 4 * (7 : Fin 8).val ∧ (29 : RegIdx).val = (28 : RegIdx).val + 1 ∧
      (30 : RegIdx).val = (28 : RegIdx).val + 2 ∧ (31 : RegIdx).val = (28 : RegIdx).val + 3 := by decide
/-- The decimal spelling whose first digit is `0`. -/
theorem witness_dec_leading_zero : (dec 0).toList.head? = some '0' := by decide
theorem witness_step_on_instruction :
    (supplied [addLine]).host = [addLine] ∧ classify addLine.text = .word 0x00221820#32 ∧
      decode 0x00221820#32 = .instr (.add 3 1 2 0#5) ∧
      (nextState (exec (.add 3 1 2 0#5)
        { supplied [addLine] with host := [], console := [.line (grp4 0x00221820#32)] })).isSome = true := by decide
theorem witness_step_on_unrecognised :
    (supplied [zeroLine]).host = [zeroLine] ∧ classify zeroLine.text = .word 0#32 ∧
      (decode 0#32).mnemonic? = none := by decide
theorem witness_step_on_short_line :
    (supplied [shortLine]).host = [shortLine] ∧ classify shortLine.text = .wrongBitCount ∧
      (supplied [shortLine]).presented = none ∧ (nextState (step (supplied [shortLine]))).isSome = true := by decide
theorem witness_presented : (supplied [addLine]).presented = some (0x00221820#32, true) := by decide
theorem witness_agreeing_states :
    (supplied []).x = (supplied [addLine]).x ∧ (supplied []).regName = (supplied [addLine]).regName := by decide
/-- Two states that agree on the registers `add` reads and differ elsewhere. -/
theorem witness_agreeing_on_reads :
    (withRegs [(1, 5#32)]).regName = (withRegs [(1, 5#32), (3, 9#32)]).regName ∧
      (∀ r ∈ readsOf (.add 3 1 2 0#5), (withRegs [(1, 5#32)]).x[r] = (withRegs [(1, 5#32), (3, 9#32)]).x[r]) ∧
      (withRegs [(1, 5#32)]).x ≠ (withRegs [(1, 5#32), (3, 9#32)]).x := by decide
theorem witness_instruction_completes : (nextState (exec (.sw 8 29 8#16) State.reset)).isSome = true := by decide
/-- The reset state with a step's output on its console and a word to supply. -/
def stateWithOutput : State :=
  { supplied [addLine] with
    console := [.line (grp4 0#32), .line (decodedLine defaultRegName true (decode 0#32))] }
/-- That state meets the invariant and makes a step. -/
theorem witness_invariant : Inv stateWithOutput ∧ (nextState (step stateWithOutput)).isSome = true :=
  ⟨⟨by decide, Transcript.word [] 0#32 true .start⟩, by decide⟩
theorem witness_lines_without_invalid_character :
    ∀ l ∈ [addLine, shortLine, zeroLine], classify l.text ≠ .invalidCharacter := by decide
theorem witness_fatal_line :
    (∀ m ∈ [addLine, shortLine], classify m.text ≠ .invalidCharacter) ∧ classify fatalLine.text = .invalidCharacter := by
  decide
theorem witness_run_goes_on :
    (nextState (runSteps [addLine, shortLine].length (supplied [addLine, shortLine]))).isSome = true := by decide
/-- A run that stops within its lines. -/
theorem witness_run_stops : faultOf (runSteps [fatalLine, addLine].length (supplied [fatalLine, addLine])) =
    some (.invalidCharacter fatalLine.text) := by decide
theorem witness_kept_lines :
    [addLine, shortLine, zeroLine].filter (fun l => decide (classify l.text ≠ .wrongBitCount)) = [addLine, zeroLine] ∧
      [addLine, shortLine, zeroLine].filter isWriter = [addLine] := by decide

end Sys2Proof.Tests
end

section
/-! PROOFS. The bits of the two 16-to-32 extensions (spec 00_scope.md R10). -/

namespace Sys2Proof.Machine

/-- Above the immediate's own bits stands its sign bit. -/
theorem getLsbD_sext32 (v : Imm16) (k : Nat) (hk : k < 32) :
    (sext32 v).getLsbD k = if k < 16 then v.getLsbD k else v.getLsbD 15 := by
  rw [sext32, BitVec.getLsbD_signExtend, BitVec.msb_eq_getLsbD_last, decide_eq_true hk, Bool.true_and]

/-- Above the immediate's own bits stand zeros. -/
theorem getLsbD_zext32 (v : Imm16) (k : Nat) (hk : k < 32) :
    (zext32 v).getLsbD k = if k < 16 then v.getLsbD k else false := by
  have same_bit : (zext32 v).getLsbD k = v.getLsbD k := by
    rw [zext32, BitVec.getLsbD_setWidth, decide_eq_true hk, Bool.true_and]
  by_cases h : k < 16
  · rw [same_bit, if_pos h]
  · rw [same_bit, if_neg h, BitVec.getLsbD_of_ge v k (Nat.le_of_not_lt h)]

/-- Settles O23: each extension read bit by bit. -/
theorem extensionsBitByBit : Obligations.ExtensionsBitByBit :=
  fun v k hk => ⟨getLsbD_sext32 v k hk, getLsbD_zext32 v k hk⟩

end Sys2Proof.Machine
end

section
/-! PROOFS. A step's new register file as a function of the old one and the word: what the write port leaves under the
control table (spec 10_state.md R21 to R24; 40_datapath.md R110, R112). -/

namespace Sys2Proof.Machine

/-- The rule of a word's outcome completes, and leaves the register file the datapath computes. -/
theorem execute_decodeFields_x (f : Fields) (s : State) :
    ∃ t, execute (decodeFields f) s = .next t ∧ t.x = datapathRegs s.x f := by
  simp only [datapathRegs, decodeFields, decodeFunct, decodeOpcode]
  split_ifs <;> exact ⟨_, rfl, rfl⟩

/-- A step on a word always completes; its registers are those the datapath computes, whatever the names and the dump. -/
theorem stepWord_x (w : Word) (dumpEn : Bool) (s : State) :
    ∃ t, stepWord w dumpEn s = .next t ∧ t.x = datapathRegs s.x (extract w) ∧ t.regName = s.regName := by
  obtain ⟨t, -, ht, hn, -, -, hs⟩ := stepWord_spec s w dumpEn
  obtain ⟨u, hu, hx⟩ := execute_decodeFields_x (extract w) (s.emit (grp4 w))
  cases ht.symm.trans hu
  exact ⟨_, hs, by simpa using hx, by simpa using hn⟩

/-- An instruction's control row enables the write port exactly when R24 lists a register as written. -/
theorem controlOf_instr_we (i : Instr) : (controlOf (.instr i)).we = (writeOf i).isSome := by
  cases i <;> rfl

/-- A row gives a write address exactly when it enables the write port: `rd` for opcode 0, `rt` otherwise (R21). -/
theorem controlOf_wa (f : Fields) :
    (controlOf (decodeFields f)).wa =
      bif (controlOf (decodeFields f)).we then some (if f.opcode = 0#6 then .rd else .rt) else none := by
  simp only [decodeFields, decodeFunct, decodeOpcode]
  split_ifs <;> rfl

/-- With the write port disabled the register file stays. -/
theorem datapathRegs_of_not_we (x : RegFile) (f : Fields) (h : (controlOf (decodeFields f)).we = false) :
    datapathRegs x f = x := by
  rw [datapathRegs, h, writePort_false]

/-- The datapath changes no register but the one the word's opcode selects. -/
theorem datapathRegs_other (x : RegFile) (f : Fields) (j : RegIdx)
    (hj : j ≠ if f.opcode = 0#6 then f.rd else f.rt) : (datapathRegs x f)[j] = x[j] := by
  cases hwe : (controlOf (decodeFields f)).we with
  | false => rw [datapathRegs_of_not_we x f hwe]
  | true =>
    have haddr : writeAddr (controlOf (decodeFields f)) f = if f.opcode = 0#6 then f.rd else f.rt := by
      rw [writeAddr, controlOf_wa f, hwe, cond_true]
      split_ifs <;> rfl
    rw [datapathRegs, hwe, haddr, writePort_true]
    exact regFile_set_other _ j _ x hj

/-- Settles O38: the write port's address is chosen by the opcode. -/
theorem stepWritesAtMostOneRegister : Obligations.StepWritesAtMostOneRegister := by
  intro w dumpEn s
  obtain ⟨t, ht, hx, -⟩ := stepWord_x w dumpEn s
  refine ⟨t, ht, fun j hj => ?_⟩
  rw [hx]
  have hop : w >>> 26 = 0#32 ↔ (extract w).opcode = 0#6 := opcode_eq_iff_shift w 0#6
  exact datapathRegs_other s.x (extract w) j (by simpa only [hop] using hj)

/-- Settles O43: the datapath reads no name. -/
theorem namesCarryNoBehaviour : Obligations.NamesCarryNoBehaviour := by
  intro w d1 d2 s names
  obtain ⟨t, ht, htx, htn⟩ := stepWord_x w d1 s
  obtain ⟨u, hu, hux, hun⟩ := stepWord_x w d2 { s with regName := names }
  exact ⟨t, u, ht, hu, htx.trans hux.symm, hun, htn⟩

end Sys2Proof.Machine
end

section
/-! PROOFS. The frame of an instruction and what it reads (spec 10_state.md R22, R24). -/

namespace Sys2Proof.Machine

/-- Settles O40: an instruction is one of the two templates, each of which meets its frame. -/
theorem frameOfEveryInstruction : Obligations.FrameOfEveryInstruction := by
  intro i s t h
  obtain ⟨dst, v, line, hw, he⟩ | ⟨line, hw, he⟩ := exec_cases s i
  · obtain ⟨u, hu, -, hother, hn, hh, hc⟩ := writeAndReport_spec s dst v line
    cases h.symm.trans (he.trans hu)
    refine ⟨fun j hj => hother j fun e => hj ?_, hn, hh, line, hc⟩
    rw [hw, e]
  · obtain ⟨u, hu, hx, hn, hh, hc⟩ := reportOnly_spec s line
    cases h.symm.trans (he.trans hu)
    exact ⟨fun j _ => by rw [hx], hn, hh, line, hc⟩

/-- Settles O39: agreeing on what the instruction reads, both states meet one template with one value and one line. -/
theorem readsAndWritesOfEveryInstruction : Obligations.ReadsAndWritesOfEveryInstruction := by
  intro i s1 s2 hn hr
  obtain ⟨dst, v, line, hw, e1, e2⟩ | ⟨line, hw, e1, e2⟩ := exec_agree i s1 s2 hn hr
  · obtain ⟨t1, h1, hv1, hother1, -, -, hc1⟩ := writeAndReport_spec s1 dst v line
    obtain ⟨t2, h2, hv2, hother2, -, -, hc2⟩ := writeAndReport_spec s2 dst v line
    refine ⟨t1, t2, line, e1.trans h1, e2.trans h2, fun j hj => ?_, fun j hj => ?_, hc1, hc2⟩
    · have hne : j ≠ dst := fun e => hj (by rw [hw, e])
      exact ⟨hother1 j hne, hother2 j hne⟩
    · obtain rfl : dst = j := Option.some.inj (hw.symm.trans hj)
      exact hv1.trans hv2.symm
  · obtain ⟨t1, h1, hx1, -, -, hc1⟩ := reportOnly_spec s1 line
    obtain ⟨t2, h2, hx2, -, -, hc2⟩ := reportOnly_spec s2 line
    refine ⟨t1, t2, line, e1.trans h1, e2.trans h2, fun j _ => ⟨by rw [hx1], by rw [hx2]⟩, fun j hj => ?_, hc1, hc2⟩
    rw [hw] at hj
    cases hj

/-- Settles O41: the write to register 0 lands, and the `or` reads it back. -/
theorem registerZeroIsWritable : Obligations.RegisterZeroIsWritable := by
  intro rs rd shamt imm s
  obtain ⟨t, ht, hv, -⟩ := writeAndReport_spec s 0 (ext .upper imm) (lineUpper s.regName "lui" 0 imm)
  obtain ⟨u, hu, hv', -⟩ := writeAndReport_spec t rd (t.x[(0 : RegIdx)] ||| t.x[(0 : RegIdx)])
    (lineR t.regName "or" rd 0 0)
  rw [ext_upper_eq_ofNat] at hv
  exact ⟨t, u, ht, hv, hu, by rw [hv', BitVec.or_self, hv]⟩

end Sys2Proof.Machine
end

section
/-! PROOFS. What a machine step can do, and the invariant it keeps (spec 10_state.md R23, R26, R31; 40_datapath.md R100;
60_exceptions.md R227). -/

namespace Sys2Proof.Machine

/-- A machine step that goes on is idle on an empty stream, or handles the stream's first line. -/
theorem step_cases {s t : State} (h : step s = .next t) :
    (s.host = [] ∧ t = s) ∨
      ∃ l rest, s.host = l :: rest ∧ stepLine l { s with host := rest } = .next t := by
  cases hh : s.host with
  | nil =>
    rw [step_idle s hh] at h
    exact .inl ⟨rfl, by cases h; rfl⟩
  | cons l rest => exact .inr ⟨l, rest, rfl, step_line s hh ▸ h⟩

/-- Settles O44: handling a line takes nothing more off the stream than that line. -/
theorem nextWordIsAlwaysTheHostsNext : Obligations.NextWordIsAlwaysTheHostsNext := by
  intro s t h
  obtain ⟨hh, rfl⟩ | ⟨l, rest, hh, hl⟩ := step_cases h
  · rw [hh, List.tail_nil]
  · rw [stepLine_host l _ t hl, hh, List.tail_cons]

/-- A step on a word appends one complete step output to a transcript: the grammar's line for that word, the dump whole. -/
theorem stepWord_keeps_inv {w : Word} {dumpEn : Bool} {s t : State} (hs : Inv s)
    (h : stepWord w dumpEn s = .next t) : Inv t := by
  obtain ⟨hzero, htr⟩ := hs
  obtain ⟨u, report, hu, hn, hc⟩ := execute_line (s.emit (grp4 w)) (decode w)
  cases (stepWord_of_execute s u hu).symm.trans h
  rw [emit_regName] at hn
  have hc' : u.console = s.console ++ [.line (grp4 w), .line (decodedLine s.regName report (decode w))] := by
    rw [hc, emit_console, emit_regName, List.append_assoc, List.singleton_append]
  refine ⟨by rw [withDump_regName, hn, hzero], ?_⟩
  rw [withDump_regName, withDump_console, hc', hn]
  cases dumpEn with
  | false => simpa using htr.word s.console w report
  | true => exact htr.wordDump s.console w report u.x

/-- Handling a line keeps the invariant. -/
theorem stepLine_keeps_inv {l : HostLine} {s t : State} (hs : Inv s) (h : stepLine l s = .next t) : Inv t := by
  cases hc : classify l.text with
  | word w => exact stepWord_keeps_inv hs (stepLine_word s hc ▸ h)
  | wrongBitCount =>
    obtain ⟨hzero, htr⟩ := hs
    cases (stepLine_skip s hc).symm.trans h
    exact ⟨hzero, htr.skipped s.console l.text hc⟩
  | invalidCharacter => cases (stepLine_fatal s hc).symm.trans h

/-- Settles O53: the conventional table names register 0 `$zero`, and nothing is emitted yet. -/
theorem invariantHoldsAtReset : Obligations.InvariantHoldsAtReset := ⟨by decide, .start⟩

/-- Settles O54: each line appends a complete step output or a skip report; the invariant does not read the stream. -/
theorem stepKeepsTheInvariant : Obligations.StepKeepsTheInvariant := by
  intro s t hs h
  obtain ⟨-, rfl⟩ | ⟨l, rest, -, hl⟩ := step_cases h
  · exact hs
  · have hrest : Inv { s with host := rest } := hs
    exact stepLine_keeps_inv hrest hl

end Sys2Proof.Machine
end

section
/-! PROOFS. The registers a run leaves, as a fold over its lines, and the lines that fold may drop (spec 10_state.md R24,
R30; 60_exceptions.md R227). -/

namespace Sys2Proof.Machine

/-- The register file after one line of the host: the datapath's for a word, the old one for any other line. -/
def lineRegs (x : RegFile) (l : HostLine) : RegFile :=
  match classify l.text with
  | .word w => datapathRegs x (extract w)
  | .wrongBitCount => x
  | .invalidCharacter => x

theorem lineRegs_word {l : HostLine} {w : Word} (x : RegFile) (h : classify l.text = .word w) :
    lineRegs x l = datapathRegs x (extract w) := by simp [lineRegs, h]

theorem lineRegs_skip {l : HostLine} (x : RegFile) (h : classify l.text = .wrongBitCount) : lineRegs x l = x := by
  simp [lineRegs, h]

theorem lineRegs_fatal {l : HostLine} (x : RegFile) (h : classify l.text = .invalidCharacter) : lineRegs x l = x := by
  simp [lineRegs, h]

/-- Every line but a fatal one is handled to a next state. -/
theorem stepLine_completes {l : HostLine} (s : State) (hl : classify l.text ≠ .invalidCharacter) :
    ∃ t, stepLine l s = .next t := by
  cases hc : classify l.text with
  | word w =>
    obtain ⟨t, ht, -⟩ := stepWord_x w l.dumpEn s
    exact ⟨t, (stepLine_word s hc).trans ht⟩
  | wrongBitCount => exact ⟨_, stepLine_skip s hc⟩
  | invalidCharacter => exact absurd hc hl

/-- Handling a line leaves the registers `lineRegs` says. -/
theorem stepLine_x {l : HostLine} {s t : State} (h : stepLine l s = .next t) : t.x = lineRegs s.x l := by
  cases hc : classify l.text with
  | word w =>
    obtain ⟨u, hu, hx, -⟩ := stepWord_x w l.dumpEn s
    cases ((stepLine_word s hc).trans hu).symm.trans h
    rw [hx, lineRegs_word _ hc]
  | wrongBitCount =>
    cases (stepLine_skip s hc).symm.trans h
    rw [lineRegs_skip _ hc]
  | invalidCharacter => cases (stepLine_fatal s hc).symm.trans h

/-- A run over lines none of which is fatal completes. -/
theorem runSteps_completes (lines : List HostLine) (hl : ∀ l ∈ lines, classify l.text ≠ .invalidCharacter) (s : State) :
    ∃ t, runSteps lines.length { s with host := lines } = .next t := by
  induction lines generalizing s with
  | nil => exact ⟨_, rfl⟩
  | cons l rest ih =>
    rw [List.forall_mem_cons] at hl
    obtain ⟨u, hu⟩ := stepLine_completes { s with host := rest } hl.1
    obtain ⟨t, ht⟩ := ih hl.2 u
    have hh : u.host = rest := stepLine_host l _ u hu
    exact ⟨t, (runSteps_cons s t l rest).2 ⟨u, hu, by simpa only [← hh] using ht⟩⟩

/-- A completed run leaves the registers that its lines leave one after another. -/
theorem runSteps_x (lines : List HostLine) (s t : State)
    (h : runSteps lines.length { s with host := lines } = .next t) : t.x = lines.foldl lineRegs s.x := by
  induction lines generalizing s with
  | nil => cases h; rfl
  | cons l rest ih =>
    obtain ⟨u, hu, hr⟩ := (runSteps_cons s t l rest).1 h
    have hh : u.host = rest := stepLine_host l _ u hu
    rw [List.foldl_cons, ih u (by simpa only [← hh] using hr), stepLine_x hu]

/-- A line that is no register-writing word leaves the registers. -/
theorem lineRegs_of_not_isWriter (x : RegFile) (l : HostLine) (h : isWriter l = false) : lineRegs x l = x := by
  cases hc : classify l.text with
  | word w =>
    rw [lineRegs_word x hc]
    refine datapathRegs_of_not_we x (extract w) ?_
    change (controlOf (decode w)).we = false
    cases hd : decode w with
    | instr i => simpa [isWriter, hc, hd, controlOf_instr_we] using h
    | unknownFunct f => rfl
    | unknownOpcode op => rfl
  | wrongBitCount => exact lineRegs_skip x hc
  | invalidCharacter => exact lineRegs_fatal x hc

/-- Dropping the lines that write no register, and asking for dumps at will, leaves the fold as it was. -/
theorem foldl_lineRegs_writers (lines : List HostLine) (dumpEn : Bool) (x : RegFile) :
    ((lines.filter isWriter).map fun l => { l with dumpEn := dumpEn }).foldl lineRegs x = lines.foldl lineRegs x := by
  have skip (y : RegFile) (l : HostLine) : (if isWriter l = true then lineRegs y l else y) = lineRegs y l := by
    split_ifs with h
    · rfl
    · exact (lineRegs_of_not_isWriter y l (eq_false_of_ne_true h)).symm
  calc ((lines.filter isWriter).map fun l => { l with dumpEn := dumpEn }).foldl lineRegs x
      = (lines.filter isWriter).foldl lineRegs x := List.foldl_map
    _ = lines.foldl (fun y l => if isWriter l = true then lineRegs y l else y) x := List.foldl_filter
    _ = lines.foldl lineRegs x := by simp only [skip]

/-- A register-writing word is no fatal line. -/
theorem classify_ne_invalid_of_isWriter {l : HostLine} (h : isWriter l = true) :
    classify l.text ≠ .invalidCharacter := by
  intro hc
  simp [isWriter, hc] at h

/-- Settles O59: both runs leave the fold of their lines, and the dropped lines are no part of it. -/
theorem registersDependOnWritersOnly : Obligations.RegistersDependOnWritersOnly := by
  intro s t dumpEn h kept
  have hkept : ∀ l ∈ kept, classify l.text ≠ .invalidCharacter := by
    intro l hl
    obtain ⟨m, hm, rfl⟩ := List.mem_map.1 hl
    exact classify_ne_invalid_of_isWriter (List.mem_filter.1 hm).2
  obtain ⟨u, hu⟩ := runSteps_completes kept hkept s
  refine ⟨u, hu, ?_⟩
  calc u.x = kept.foldl lineRegs s.x := runSteps_x kept s u hu
    _ = s.host.foldl lineRegs s.x := foldl_lineRegs_writers s.host dumpEn s.x
    _ = t.x := (runSteps_x s.host s t h).symm

end Sys2Proof.Machine
end

section
/-! PROOFS. The composition of runs in supply order: a run goes on from the state an earlier part leaves, and neither its
course nor its stop depends on the lines after it (spec 20_memory.md R47; 60_exceptions.md R226). -/

namespace Sys2Proof.Machine

/-- A run of `k + 1` steps goes on exactly when its first step does and the run from there does. -/
theorem runSteps_succ_eq_next {k : Nat} {s t : State} :
    runSteps (k + 1) s = .next t ↔ ∃ u, step s = .next u ∧ runSteps k u = .next t := by
  rw [runSteps_succ]
  cases step s <;> simp

/-- A run of `k + 1` steps stops at its first step, or in the run from what that step leaves. -/
theorem runSteps_succ_eq_fault {k : Nat} {s : State} {f : Fault} :
    runSteps (k + 1) s = .fault f ↔ step s = .fault f ∨ ∃ u, step s = .next u ∧ runSteps k u = .fault f := by
  rw [runSteps_succ]
  cases step s <;> simp

/-- After `n` steps that go on, `k` more are the run of `k` from the state they leave. -/
theorem runSteps_add_of_next {n : Nat} {s t : State} (h : runSteps n s = .next t) (k : Nat) :
    runSteps (n + k) s = runSteps k t := by
  induction n generalizing s with
  | zero => cases h; rw [Nat.zero_add]
  | succ n ih =>
    obtain ⟨u, hu, hr⟩ := runSteps_succ_eq_next.1 h
    rw [Nat.succ_add, runSteps_succ, hu]
    exact ih hr

/-- A stop within `n` steps is the stop of every longer run. -/
theorem runSteps_add_of_fault {n : Nat} {s : State} {f : Fault} (h : runSteps n s = .fault f) (k : Nat) :
    runSteps (n + k) s = .fault f := by
  induction n generalizing s with
  | zero => cases h
  | succ n ih =>
    rw [Nat.succ_add, runSteps_succ_eq_fault]
    obtain hs | ⟨u, hu, hr⟩ := runSteps_succ_eq_fault.1 h
    · exact .inl hs
    · exact .inr ⟨u, hu, ih hr⟩

/-- Handling a line stops at a line with an invalid character alone, with the fault that carries the line. -/
theorem stepLine_eq_fault {l : HostLine} {s : State} {f : Fault} :
    stepLine l s = .fault f ↔ classify l.text = .invalidCharacter ∧ f = .invalidCharacter l.text := by
  constructor
  · intro h
    have hc : classify l.text = .invalidCharacter := by
      by_contra hne
      obtain ⟨t, ht⟩ := stepLine_completes s hne
      cases ht.symm.trans h
    rw [stepLine_fatal s hc] at h
    cases h
    exact ⟨hc, rfl⟩
  · rintro ⟨hc, rfl⟩
    exact stepLine_fatal s hc

/-- A step that goes on takes the first line off the stream. -/
theorem step_cons_host {l : HostLine} {a : List HostLine} {s u : State}
    (h : step { s with host := l :: a } = .next u) : u.host = a := by
  rw [step_line _ rfl] at h
  exact stepLine_host l _ u h

/-- A step that goes on does the same, but for the stream it leaves, whatever lines `c` follow the first. -/
theorem step_cons_next_of_next {l : HostLine} {a : List HostLine} {s u : State}
    (h : step { s with host := l :: a } = .next u) (c : List HostLine) :
    step { s with host := l :: c } = .next { u with host := c } := by
  rw [step_line _ rfl] at h ⊢
  exact stepLine_set_host l { s with host := a } u c h

/-- A step that stops does so whatever lines `c` follow the first. -/
theorem step_cons_fault_of_fault {l : HostLine} {a : List HostLine} {s : State} {f : Fault}
    (h : step { s with host := l :: a } = .fault f) (c : List HostLine) :
    step { s with host := l :: c } = .fault f := by
  rw [step_line _ rfl, stepLine_eq_fault] at h ⊢
  exact h

/-- A run over its lines that goes on has consumed them. -/
theorem runSteps_host_eq_nil {a : List HostLine} {s t : State}
    (h : runSteps a.length { s with host := a } = .next t) : t.host = [] := by
  induction a generalizing s with
  | nil => cases h; rfl
  | cons l a ih =>
    obtain ⟨u, hu, hr⟩ := runSteps_succ_eq_next.1 h
    obtain rfl : u.host = a := step_cons_host hu
    exact ih hr

/-- A run over `a` that goes on does the same with lines `b` still to come, and leaves them on the stream. -/
theorem runSteps_append_next {a : List HostLine} {s t : State}
    (h : runSteps a.length { s with host := a } = .next t) (b : List HostLine) :
    runSteps a.length { s with host := a ++ b } = .next { t with host := b } := by
  induction a generalizing s with
  | nil => cases h; rfl
  | cons l a ih =>
    obtain ⟨u, hu, hr⟩ := runSteps_succ_eq_next.1 h
    have hab := step_cons_next_of_next hu (a ++ b)
    obtain rfl : u.host = a := step_cons_host hu
    exact runSteps_succ_eq_next.2 ⟨_, hab, ih hr⟩

/-- A run over `a` that stops makes the same stop with lines `b` still to come. -/
theorem runSteps_append_fault {a : List HostLine} {s : State} {f : Fault}
    (h : runSteps a.length { s with host := a } = .fault f) (b : List HostLine) :
    runSteps a.length { s with host := a ++ b } = .fault f := by
  induction a generalizing s with
  | nil => cases h
  | cons l a ih =>
    obtain hs | ⟨u, hu, hr⟩ := runSteps_succ_eq_fault.1 h
    · exact runSteps_succ_eq_fault.2 (.inl (step_cons_fault_of_fault hs (a ++ b)))
    · have hab := step_cons_next_of_next hu (a ++ b)
      obtain rfl : u.host = a := step_cons_host hu
      exact runSteps_succ_eq_fault.2 (.inr ⟨_, hab, ih hr⟩)

/-- Settles O56: the run over `a` does not depend on the lines `b` after it, and the whole run goes on from what it leaves. -/
theorem runsComposeInSupplyOrder : Obligations.RunsComposeInSupplyOrder := by
  intro s a b k
  constructor
  · intro t h
    exact ⟨runSteps_host_eq_nil h, runSteps_add_of_next (runSteps_append_next h b) k⟩
  · intro f h
    exact runSteps_add_of_fault (runSteps_append_fault h b) k

end Sys2Proof.Machine
end

section
/-! PROOFS. The two levels of the decoder on any field record, and the round trips between words, outcomes and the encoder
(spec 30_encoding.md R61 to R73). -/

namespace Sys2Proof

/-- Opcode 0 selects the second level (R68). -/
theorem decodeFields_of_opcode_eq_zero {f : Fields} (h : f.opcode = 0#6) : decodeFields f = decodeFunct f :=
  if_pos h

/-- Any other opcode is decided at the first level (R68). -/
theorem decodeFields_of_opcode_ne_zero {f : Fields} (h : f.opcode ≠ 0#6) : decodeFields f = decodeOpcode f :=
  if_neg h

/-- A funct of the secondary map gives an instruction whose R-type word has exactly the fields read (R70). -/
theorem decodeFunct_of_mem {f : Fields} (h : f.funct ∈ recognisedFuncts) :
    ∃ i, decodeFunct f = .instr i ∧ encode i = encodeR f.rs f.rt f.rd f.shamt f.funct := by
  simp only [recognisedFuncts, List.mem_cons, List.not_mem_nil, or_false] at h
  obtain ⟨op, rs, rt, rd, shamt, funct, imm, addr⟩ := f
  obtain rfl | rfl | rfl | rfl | rfl := h <;> exact ⟨_, rfl, rfl⟩

/-- A funct outside the secondary map is unknown (R72). -/
theorem decodeFunct_of_not_mem {f : Fields} (h : f.funct ∉ recognisedFuncts) :
    decodeFunct f = .unknownFunct f.funct := by
  simp only [recognisedFuncts, List.mem_cons, List.not_mem_nil, or_false, not_or] at h
  simp only [decodeFunct, h, if_false]

/-- A non-zero opcode of the primary map gives an instruction whose I-type word has exactly the fields read (R69). -/
theorem decodeOpcode_of_mem {f : Fields} (h0 : f.opcode ≠ 0#6) (h : f.opcode ∈ recognisedOpcodes) :
    ∃ i, decodeOpcode f = .instr i ∧ encode i = encodeI f.opcode f.rs f.rt f.imm := by
  simp only [recognisedOpcodes, List.mem_cons, List.not_mem_nil, or_false, h0, false_or] at h
  obtain ⟨op, rs, rt, rd, shamt, funct, imm, addr⟩ := f
  obtain rfl | rfl | rfl | rfl | rfl | rfl | rfl | rfl := h <;> exact ⟨_, rfl, rfl⟩

/-- An opcode outside the primary map is unknown (R72). -/
theorem decodeOpcode_of_not_mem {f : Fields} (h : f.opcode ∉ recognisedOpcodes) :
    decodeOpcode f = .unknownOpcode f.opcode := by
  simp only [recognisedOpcodes, List.mem_cons, List.not_mem_nil, or_false, not_or] at h
  simp only [decodeOpcode, h, if_false]

/-- What the decoder makes of a word: an instruction that encodes to that word, or one of the two unrecognised classes with
a selector outside its map (R73). -/
theorem decode_cases (w : Word) :
    (∃ i, decode w = .instr i ∧ encode i = w) ∨
      (∃ fn, decode w = .unknownFunct fn ∧ fn ∉ recognisedFuncts) ∨
      (∃ op, decode w = .unknownOpcode op ∧ op ∉ recognisedOpcodes) := by
  by_cases h0 : (extract w).opcode = 0#6
  · rw [decode, decodeFields_of_opcode_eq_zero h0]
    by_cases h : (extract w).funct ∈ recognisedFuncts
    · obtain ⟨i, hd, he⟩ := decodeFunct_of_mem h
      exact .inl ⟨i, hd, he.trans (encodeR_extract w h0)⟩
    · exact .inr (.inl ⟨_, decodeFunct_of_not_mem h, h⟩)
  · rw [decode, decodeFields_of_opcode_ne_zero h0]
    by_cases h : (extract w).opcode ∈ recognisedOpcodes
    · obtain ⟨i, hd, he⟩ := decodeOpcode_of_mem h0 h
      exact .inl ⟨i, hd, he.trans (encodeI_extract w)⟩
    · exact .inr (.inr ⟨_, decodeOpcode_of_not_mem h, h⟩)

/-- The decoder on an R-type word: the second level on the fields it was made of. -/
theorem decode_encodeR (rs rt rd : RegIdx) (shamt : BitVec 5) (funct : BitVec 6) :
    decode (encodeR rs rt rd shamt funct) = decodeFunct ⟨0#6, rs, rt, rd, shamt, funct, 0#16, 0#26⟩ := by
  obtain ⟨hop, hrs, hrt, hrd, hshamt, hfunct⟩ := extract_encodeR rs rt rd shamt funct
  rw [decode, decodeFields_of_opcode_eq_zero hop]
  simp only [decodeFunct, hrs, hrt, hrd, hshamt, hfunct]

/-- The decoder on an I-type word: the first level on the fields it was made of. -/
theorem decode_encodeI {op : BitVec 6} (h0 : op ≠ 0#6) (rs rt : RegIdx) (imm : Imm16) :
    decode (encodeI op rs rt imm) = decodeOpcode ⟨op, rs, rt, 0, 0#5, 0#6, imm, 0#26⟩ := by
  obtain ⟨hop, hrs, hrt, himm⟩ := extract_encodeI op rs rt imm
  rw [decode, decodeFields_of_opcode_ne_zero (by rwa [hop])]
  simp only [decodeOpcode, hop, hrs, hrt, himm]

/-- Every instruction's word decodes to it. -/
theorem decode_encode (i : Instr) : decode (encode i) = .instr i := by
  cases i
  case add | sub | and | or | slt => exact decode_encodeR _ _ _ _ _
  case beq | bne | addi | andi | ori | lui | lw | sw => exact decode_encodeI (by decide) _ _ _

/-- Settles O1: the fields of the encoder's word are the operands, and the decoder reads them. -/
theorem decodeOfEncodeIsTheInstruction : Obligations.DecodeOfEncodeIsTheInstruction :=
  fun i _ => decode_encode i

/-- Settles O2: of the three things the decoder can do, only one answers an instruction. -/
theorem encodeOfDecodeIsTheWord : Obligations.EncodeOfDecodeIsTheWord := by
  intro w i h
  obtain ⟨j, hd, he⟩ | ⟨fn, hd, -⟩ | ⟨op, hd, -⟩ := decode_cases w <;> cases hd.symm.trans h
  exact he

/-- A word's outcome is well formed. -/
theorem wellFormed_decode (w : Word) : (decode w).wellFormed = true := by
  obtain ⟨i, hd, -⟩ | ⟨fn, hd, h⟩ | ⟨op, hd, h⟩ := decode_cases w <;> rw [hd]
  · cases i <;> rfl
  · simpa [Decoded.wellFormed] using h
  · simpa [Decoded.wellFormed] using h

/-- The encoder's word of a well-formed outcome decodes to that outcome. -/
theorem decode_encode_of_wellFormed {d : Decoded} (h : d.wellFormed = true) : decode d.encode = d := by
  cases d with
  | instr i => exact decode_encode i
  | unknownFunct fn =>
    have hfn : fn ∉ recognisedFuncts := by simpa [Decoded.wellFormed] using h
    exact (decode_encodeR _ _ _ _ _).trans (decodeFunct_of_not_mem hfn)
  | unknownOpcode op =>
    have hop : op ∉ recognisedOpcodes := by simpa [Decoded.wellFormed] using h
    have h0 : op ≠ 0#6 := fun e => hop (e ▸ by decide)
    exact (decode_encodeI h0 _ _ _).trans (decodeOpcode_of_not_mem hop)

/-- Settles O3: the two directions. -/
theorem outcomesAreExactlyTheWellFormedOnes : Obligations.OutcomesAreExactlyTheWellFormedOnes :=
  ⟨wellFormed_decode, fun _ => decode_encode_of_wellFormed⟩

/-- Settles O6: each word by the decoder's evaluation. -/
theorem writtenOutWordsDecode : Obligations.WrittenOutWordsDecode := by
  unfold Obligations.WrittenOutWordsDecode
  decide

end Sys2Proof
end

section
/-! PROOFS. The rows of the opcode maps against the decoder (spec 30_encoding.md R69, R70, R73). -/

namespace Sys2Proof

/-- A row of the secondary map that covers a word names its instruction, if that funct decodes under the row's name. -/
theorem mnemonic?_of_covers_functRow {w : Word} (mn : String) (fn : BitVec 6)
    (hmn : ∀ f : Fields, (decodeFields { f with opcode := 0#6, funct := fn }).mnemonic? = some mn)
    (h : OpRow.covers ⟨mn, 0xFC00003F#32, fn.setWidth 32⟩ w = true) : (decode w).mnemonic? = some mn := by
  obtain ⟨hop, hfn⟩ := (opcode_funct_eq_iff_mask w fn).2 (beq_iff_eq.1 h)
  rw [decode, ← hmn (extract w), ← hop, ← hfn]

/-- A row of the primary map that covers a word names its instruction, if that opcode decodes under the row's name. -/
theorem mnemonic?_of_covers_opcodeRow {w : Word} (mn : String) (op : BitVec 6)
    (hmn : ∀ f : Fields, (decodeFields { f with opcode := op }).mnemonic? = some mn)
    (h : OpRow.covers ⟨mn, 0xFC000000#32, op.setWidth 32 <<< 26⟩ w = true) : (decode w).mnemonic? = some mn := by
  have hop := (opcode_eq_iff_mask w op).2 (beq_iff_eq.1 h)
  rw [decode, ← hmn (extract w), ← hop]

/-- Every row that covers a word names the instruction the word decodes to. -/
theorem mnemonic?_of_covers (w : Word) :
    ∀ r ∈ opcodeTable, r.covers w = true → (decode w).mnemonic? = some r.mnemonic := by
  simp only [opcodeTable, List.forall_mem_cons]
  exact ⟨mnemonic?_of_covers_functRow "add" 0x20#6 fun _ => rfl, mnemonic?_of_covers_functRow "sub" 0x22#6 fun _ => rfl,
    mnemonic?_of_covers_functRow "and" 0x24#6 fun _ => rfl, mnemonic?_of_covers_functRow "or" 0x25#6 fun _ => rfl,
    mnemonic?_of_covers_functRow "slt" 0x2A#6 fun _ => rfl, mnemonic?_of_covers_opcodeRow "beq" 0x04#6 fun _ => rfl,
    mnemonic?_of_covers_opcodeRow "bne" 0x05#6 fun _ => rfl, mnemonic?_of_covers_opcodeRow "addi" 0x08#6 fun _ => rfl,
    mnemonic?_of_covers_opcodeRow "andi" 0x0C#6 fun _ => rfl, mnemonic?_of_covers_opcodeRow "ori" 0x0D#6 fun _ => rfl,
    mnemonic?_of_covers_opcodeRow "lui" 0x0F#6 fun _ => rfl, mnemonic?_of_covers_opcodeRow "lw" 0x23#6 fun _ => rfl,
    mnemonic?_of_covers_opcodeRow "sw" 0x2B#6 fun _ => rfl, List.forall_mem_nil _⟩

/-- The encoder's word of an instruction is covered by the row that bears its mnemonic. -/
theorem row_covers_encode (i : Instr) : Laws.EncodeMatches.Statement i := by
  cases i with
  | add => exact Laws.EncodeMatches.add ..
  | sub => exact Laws.EncodeMatches.sub ..
  | and => exact Laws.EncodeMatches.and ..
  | or => exact Laws.EncodeMatches.or ..
  | slt => exact Laws.EncodeMatches.slt ..
  | beq => exact Laws.EncodeMatches.beq ..
  | bne => exact Laws.EncodeMatches.bne ..
  | addi => exact Laws.EncodeMatches.addi ..
  | andi => exact Laws.EncodeMatches.andi ..
  | ori => exact Laws.EncodeMatches.ori ..
  | lui => exact Laws.EncodeMatches.lui ..
  | lw => exact Laws.EncodeMatches.lw ..
  | sw => exact Laws.EncodeMatches.sw ..

/-- A word no row covers is unrecognised: an instruction's word is the encoder's, which its own row covers. -/
theorem mnemonic?_of_not_covered {w : Word} (h : ∀ r ∈ opcodeTable, ¬ r.covers w = true) :
    (decode w).mnemonic? = none := by
  obtain ⟨i, -, rfl⟩ | ⟨fn, hd, -⟩ | ⟨op, hd, -⟩ := decode_cases w
  · obtain ⟨r, hr, -, hcov⟩ := row_covers_encode i
    exact absurd hcov (h r hr)
  · rw [hd]; rfl
  · rw [hd]; rfl

/-- No two rows bear the same mnemonic. -/
theorem opcodeTable_pairwise_mnemonic_ne : opcodeTable.Pairwise (fun r q => r.mnemonic ≠ q.mnemonic) := by decide

/-- Settles O4: every covering row names the word's one instruction, and no two rows bear one name. -/
theorem decoderAgreesWithOpcodeMaps : Obligations.DecoderAgreesWithOpcodeMaps := by
  intro w
  have hname : ∀ r ∈ opcodeTable.filter (·.covers w), (decode w).mnemonic? = some r.mnemonic := fun r hr =>
    mnemonic?_of_covers w r (List.mem_filter.1 hr).1 (List.mem_filter.1 hr).2
  have hdistinct := opcodeTable_pairwise_mnemonic_ne.filter (·.covers w)
  generalize hrows : opcodeTable.filter (·.covers w) = rows at hname hdistinct ⊢
  match rows with
  | [] => exact ⟨mnemonic?_of_not_covered (List.filter_eq_nil_iff.1 hrows), Nat.zero_le 1⟩
  | [r] => exact ⟨hname r List.mem_cons_self, Nat.le_refl 1⟩
  | r :: q :: rest =>
    have hne : r.mnemonic ≠ q.mnemonic := (List.pairwise_cons.1 hdistinct).1 q List.mem_cons_self
    have hr := hname r List.mem_cons_self
    have hq := hname q (List.mem_cons_of_mem r List.mem_cons_self)
    exact absurd (Option.some.inj (hr.symm.trans hq)) hne

end Sys2Proof
end

section
/-! PROOFS. The fields no recognised instruction reads: `shamt` of an R-type word and `rs` of `lui` (spec 30_encoding.md
R65; 92_eei_decisions.md D18). -/

namespace Sys2Proof.Machine

/-- Two words that differ in no bit of the mask agree on every field the mask holds whole. -/
theorem extractLsb'_eq_of_xor_and_eq_zero {w w' mask : Word} (h : (w ^^^ w') &&& mask = 0#32) (lo n : Nat)
    (hmask : mask.extractLsb' lo n = BitVec.allOnes n) : w.extractLsb' lo n = w'.extractLsb' lo n := by
  have hfield := congrArg (BitVec.extractLsb' lo n) h
  rwa [BitVec.extractLsb'_and, BitVec.extractLsb'_xor, hmask, BitVec.and_allOnes, BitVec.extractLsb'_zero,
    BitVec.xor_eq_zero_iff] at hfield

/-- Two outcomes that are recognised alike and act alike on every state. -/
def ActAlike (d d' : Decoded) : Prop := d.mnemonic? = d'.mnemonic? ∧ ∀ s : State, execute d s = execute d' s

/-- The second level's outcome acts alike whatever the fields it does not read, `shamt` among them. -/
theorem actAlike_decodeFunct {f f' : Fields} (hrs : f.rs = f'.rs) (hrt : f.rt = f'.rt) (hrd : f.rd = f'.rd)
    (hfunct : f.funct = f'.funct) : ActAlike (decodeFunct f) (decodeFunct f') := by
  simp only [decodeFunct, hrs, hrt, hrd, hfunct]
  split_ifs <;> exact ⟨rfl, fun _ => rfl⟩

/-- Opcode 0x0F is `lui`. -/
theorem decodeFields_lui {f : Fields} (h : f.opcode = 0x0F#6) : decodeFields f = .instr (.lui f.rt f.rs f.imm) := by
  obtain ⟨op, rs, rt, rd, shamt, funct, imm, addr⟩ := f
  cases h
  rfl

/-- The outcome of a `lui` word acts alike whatever its `rs`. -/
theorem actAlike_lui {f f' : Fields} (hop : f.opcode = 0x0F#6) (hop' : f'.opcode = 0x0F#6) (hrt : f.rt = f'.rt)
    (himm : f.imm = f'.imm) : ActAlike (decodeFields f) (decodeFields f') := by
  rw [decodeFields_lui hop, decodeFields_lui hop', hrt, himm]
  exact ⟨rfl, fun _ => rfl⟩

/-- Settles O7: the fields that are read lie in the mask's bits, so the two words agree on them. -/
theorem unusedFieldsAreIgnored : Obligations.UnusedFieldsAreIgnored := by
  refine ⟨fun w w' hw h => ?_, fun w w' hw h => ?_⟩
  · have same := extractLsb'_eq_of_xor_and_eq_zero h
    have hop : (extract w).opcode = 0#6 := (opcode_eq_iff_shift w 0#6).1 hw
    have hop' : (extract w').opcode = 0#6 := (same 26 6 rfl).symm.trans hop
    rw [decode, decode, decodeFields_of_opcode_eq_zero hop, decodeFields_of_opcode_eq_zero hop']
    exact actAlike_decodeFunct (congrArg regOf (same 21 5 rfl)) (congrArg regOf (same 16 5 rfl))
      (congrArg regOf (same 11 5 rfl)) (same 0 6 rfl)
  · have same := extractLsb'_eq_of_xor_and_eq_zero h
    have hop : (extract w).opcode = 0x0F#6 := (opcode_eq_iff_shift w 0x0F#6).1 hw
    have hop' : (extract w').opcode = 0x0F#6 := (same 26 6 rfl).symm.trans hop
    exact actAlike_lui hop hop' (congrArg regOf (same 16 5 rfl)) (same 0 16 rfl)

end Sys2Proof.Machine
end

section
/-! PROOFS. The extender's modes as numbers and in the control table (spec 30_encoding.md R66; 40_datapath.md R107, R112). -/

namespace Sys2Proof.Machine

theorem toNat_ext_zext (imm : Imm16) : (ext .zext imm).toNat = imm.toNat := by
  rw [ext_zext_eq_ofNat, BitVec.toNat_ofNat, Nat.mod_eq_of_lt (by omega)]

theorem toNat_ext_upper (imm : Imm16) : (ext .upper imm).toNat = imm.toNat * 65536 := by
  rw [ext_upper_eq_ofNat, BitVec.toNat_ofNat, Nat.mod_eq_of_lt (by omega)]

/-- Settles O24: the three modes as numbers, and the eight rows read off the control table. -/
theorem extenderModes : Obligations.ExtenderModes :=
  ⟨fun imm => ⟨toInt_ext_sext imm, toNat_ext_zext imm, toNat_ext_upper imm⟩,
    fun _ _ _ => ⟨rfl, rfl, rfl, rfl, rfl, rfl, rfl, rfl⟩⟩

end Sys2Proof.Machine
end

section
/-! PROOFS. The wired datapath against the instruction rules, and what a step of the block emits and leaves, read off the
datapath (spec 40_datapath.md R100 to R104, R112, R113, R135). -/

namespace Sys2Proof.Machine

/-- The rule of a field record's outcome answers the register file and the line of the wired datapath, and changes nothing
else (R112, R113). -/
theorem execute_decodeFields (f : Fields) (s : State) :
    execute (decodeFields f) s =
      .next (({ s with x := datapathRegs s.x f } : State).emit (datapathLine s.regName s.x f)) := by
  simp only [datapathRegs, datapathLine, decodeFields, decodeFunct, decodeOpcode]
  split_ifs <;> rfl

/-- Settles O28: the rule of the outcome is the datapath's, by its control row; the word line stands before and the dump
after it. -/
theorem datapathRefinesInstructionRules : Obligations.DatapathRefinesInstructionRules := by
  intro w dumpEn s
  have hrule := execute_decodeFields (extract w) (s.emit (grp4 w))
  rw [stepWord_of_execute s _ hrule]
  cases dumpEn <;> simp [withDump, State.emit, State.emitAll, blockStep]

/-- The length of the register dump (R136). -/
theorem length_dump (names : RegNames) (x : RegFile) : (dump names x).length = 8 := rfl

/-- A step of the block emits two lines, and the eight of the dump if it is asked for (R102). -/
theorem length_blockStep_lines (names : RegNames) (x : RegFile) (w : Word) (dumpEn : Bool) :
    (blockStep names x w dumpEn).2.length = if dumpEn then 10 else 2 := by
  cases dumpEn <;> rfl

/-- On a line that is a word, the machine's step is the block's step on that word. -/
theorem step_word {s : State} {l : HostLine} {rest : List HostLine} {w : Word} (hs : s.host = l :: rest)
    (hc : classify l.text = .word w) : step s = stepWord w l.dumpEn { s with host := rest } :=
  (step_line s hs).trans (stepLine_word _ hc)

/-- Settles O36: the lines are the block's, two or ten of them. -/
theorem stepNeverFailsAndEmitsTwoOrTenLines : Obligations.StepNeverFailsAndEmitsTwoOrTenLines := by
  intro s l rest w hs hc
  have hstep := (step_word hs hc).trans (datapathRefinesInstructionRules w l.dumpEn { s with host := rest })
  exact ⟨_, _, hstep, rfl, length_blockStep_lines s.regName s.x w l.dumpEn⟩

/-- Settles O37: `blockStep` reads nothing but the names, the registers, the word and the dump bit. -/
theorem stepIsAFunctionOfRegistersWordAndDump : Obligations.StepIsAFunctionOfRegistersWordAndDump := by
  intro s1 s2 w dumpEn hx hn
  have h1 := datapathRefinesInstructionRules w dumpEn s1
  have h2 := datapathRefinesInstructionRules w dumpEn s2
  rw [hx, hn] at h1
  exact ⟨_, _, (blockStep s2.regName s2.x w dumpEn).2, h1, h2, rfl, rfl, rfl⟩

/-- Settles O35: the word line, the datapath's line and registers, then the dump of those registers. -/
theorem stepEmitsWordLineDecodedLineDump : Obligations.StepEmitsWordLineDecodedLineDump := by
  intro s l rest w hs hc
  have hrule := execute_decodeFields (extract w) { s with host := rest }
  have hstep := (step_word hs hc).trans (datapathRefinesInstructionRules w l.dumpEn { s with host := rest })
  refine ⟨_, _, datapathLine s.regName s.x (extract w), hrule, rfl,
    ⟨_, datapathRegs_other s.x (extract w)⟩, hstep, rfl, rfl, rfl, ?_⟩
  cases l.dumpEn <;> simp [blockStep]

/-- Settles O34: `exec` of the instruction is the rule of the word's outcome. -/
theorem stepRunsTheDecodedInstruction : Obligations.StepRunsTheDecodedInstruction := by
  intro s l rest w i hs hc hd t ht
  have hrule : execute (decode w) (State.emit { s with host := rest } (grp4 w)) = .next t := by rw [hd]; exact ht
  rw [step_word hs hc, stepWord_of_execute _ t hrule]
  cases l.dumpEn <;> rfl

/-- A presented word is the host's first line, read as a word, with that line's dump bit (R104). -/
theorem presented_eq_some {s : State} {w : Word} {dumpEn : Bool} (h : s.presented = some (w, dumpEn)) :
    ∃ l rest, s.host = l :: rest ∧ classify l.text = .word w ∧ l.dumpEn = dumpEn := by
  cases hs : s.host with
  | nil => simp [State.presented, hs] at h
  | cons l rest =>
    cases hc : classify l.text with
    | word v =>
      obtain ⟨rfl, rfl⟩ : v = w ∧ l.dumpEn = dumpEn := by simpa [State.presented, hs, hc] using h
      exact ⟨l, rest, rfl, hc, rfl⟩
    | wrongBitCount => simp [State.presented, hs, hc] at h
    | invalidCharacter => simp [State.presented, hs, hc] at h

/-- Settles O51: the presented word is the first line's, and the block's step keeps the lines after it. -/
theorem eachPresentedWordStartsOneStep : Obligations.EachPresentedWordStartsOneStep := by
  intro s w dumpEn h
  obtain ⟨l, rest, hs, hc, rfl⟩ := presented_eq_some h
  rw [step_word hs hc, hs, List.tail_cons]
  exact ⟨rfl, _, datapathRefinesInstructionRules w l.dumpEn { s with host := rest }, rfl⟩

/-- No decoded line is blank, whatever the names: each begins with the mnemonic or the report's text (R74). -/
theorem decodedLine_ne_empty (names : RegNames) (taken : Bool) (d : Decoded) : decodedLine names taken d ≠ "" := by
  cases d with
  | instr i => cases i <;> simp [decodedLine, lineR, lineBranch, lineSigned, lineHex, lineUpper, lineMem]
  | unknownFunct f => exact fun h => absurd (String.append_eq_empty_iff.1 h).1 (by decide)
  | unknownOpcode op => exact fun h => absurd (String.append_eq_empty_iff.1 h).1 (by decide)

theorem grp4_ne_empty (w : Word) : grp4 w ≠ "" := by
  rw [grp4, Ne, String.ofList_eq_empty_iff, grp4Chars_eq]
  exact List.cons_ne_nil _ _

theorem dumpLine_ne_empty (names : RegNames) (x : RegFile) (r : Fin 8) : dumpLine names x r ≠ "" := by
  simp [dumpLine]

/-- No line of a step is blank (R135). -/
theorem blockStep_lines_ne_empty (names : RegNames) (x : RegFile) (w : Word) (dumpEn : Bool) :
    ∀ line ∈ (blockStep names x w dumpEn).2, line ≠ "" := by
  intro line hl
  obtain hl | hl := List.mem_append.1 hl
  · obtain rfl | rfl : line = grp4 w ∨ line = datapathLine names x (extract w) := by simpa using hl
    · exact grp4_ne_empty w
    · exact decodedLine_ne_empty names _ _
  · cases dumpEn with
    | false => cases hl
    | true =>
      obtain ⟨r, -, rfl⟩ := List.mem_map.1 hl
      exact dumpLine_ne_empty names _ r

/-- The block's lines print as each of them with one newline (R135). -/
theorem printedText_map_line (lines : List String) :
    printedText (lines.map .line) = String.join (lines.map (· ++ "\n")) := by
  rw [printedText, List.map_map]
  rfl

/-- Settles O33: the lines are the block's, none of them blank. -/
theorem linesPrintedWithoutBlankLines : Obligations.LinesPrintedWithoutBlankLines := by
  intro w dumpEn s
  refine ⟨_, (blockStep s.regName s.x w dumpEn).2, datapathRefinesInstructionRules w dumpEn s, rfl,
    blockStep_lines_ne_empty s.regName s.x w dumpEn, ?_⟩
  rw [printedText_append, printedText_map_line]

end Sys2Proof.Machine
end

section
/-! PROOFS. How many lines the block has emitted after a run (spec 40_datapath.md R102; 60_exceptions.md R227, R229). -/

namespace Sys2Proof.Machine

/-- The lines of two states of which one's console goes on from the other's with lines of the block. -/
theorem textOut_of_console_append {s t : State} {lines : List String}
    (h : t.console = s.console ++ lines.map .line) : t.textOut = s.textOut ++ lines := by
  rw [State.textOut, State.textOut, h, List.filterMap_append, List.filterMap_map]
  exact congrArg _ (List.filterMap_some)

/-- A skip report is no line of the block (R227). -/
theorem textOut_of_console_skipReport {s t : State} {rejected : String}
    (h : t.console = s.console ++ [.skipReport rejected]) : t.textOut = s.textOut := by
  rw [State.textOut, State.textOut, h, List.filterMap_append]
  exact List.append_nil _

/-- Handling a line emits as many lines of the block as `linesFor` says. -/
theorem stepLine_length_textOut {l : HostLine} {s t : State} (h : stepLine l s = .next t) :
    t.textOut.length = s.textOut.length + linesFor l := by
  cases hc : classify l.text with
  | word w =>
    cases ((stepLine_word s hc).trans (datapathRefinesInstructionRules w l.dumpEn s)).symm.trans h
    rw [textOut_of_console_append (s := s) rfl, List.length_append, length_blockStep_lines]
    simp [linesFor, hc]
  | wrongBitCount =>
    cases (stepLine_skip s hc).symm.trans h
    rw [textOut_of_console_skipReport (s := s) rfl]
    simp [linesFor, hc]
  | invalidCharacter => cases (stepLine_fatal s hc).symm.trans h

/-- A completed run has emitted the lines of each of its host lines, by induction on these. -/
theorem runSteps_length_textOut (a : List HostLine) (s t : State)
    (h : runSteps a.length { s with host := a } = .next t) :
    t.textOut.length = s.textOut.length + (a.map linesFor).sum := by
  induction a generalizing s with
  | nil => cases h; rfl
  | cons l rest ih =>
    obtain ⟨u, hu, hr⟩ := (runSteps_cons s t l rest).1 h
    obtain rfl : u.host = rest := stepLine_host l _ u hu
    have hfirst : u.textOut.length = s.textOut.length + linesFor l :=
      stepLine_length_textOut (s := { s with host := u.host }) hu
    rw [ih u hr, hfirst, List.map_cons, List.sum_cons, Nat.add_assoc]

/-- Settles O55: the run completes, its stream is empty, and the counts of its lines add up. -/
theorem runConsumesEveryLine : Obligations.RunConsumesEveryLine := by
  intro s hvalid
  obtain ⟨t, ht⟩ := runSteps_completes s.host hvalid s
  have hempty : t.host = [] := runSteps_host_eq_nil ht
  exact ⟨t, ht, by rw [State.ended, hempty, List.isEmpty_nil], runSteps_length_textOut s.host s t ht⟩

end Sys2Proof.Machine
end

section
/-! PROOFS. The fields as shifted and masked words (spec 30_encoding.md R61; 40_datapath.md R106). -/

namespace Sys2Proof

/-- A field of a word, widened to a word again: the word shifted down and masked to the field's width. -/
theorem setWidth_extractLsb' (w : Word) (lo n : Nat) :
    (w.extractLsb' lo n).setWidth 32 = (w >>> lo) &&& (BitVec.allOnes n).setWidth 32 := by
  ext k hk
  simp [Bool.and_comm]

/-- A 5-bit field read as a register index. -/
theorem val_regOf_extractLsb' (w : Word) (lo : Nat) :
    (regOf (w.extractLsb' lo 5)).val = ((w >>> lo) &&& 0x1F#32).toNat := by
  have h : (w.extractLsb' lo 5).setWidth 32 = (w >>> lo) &&& 0x1F#32 := setWidth_extractLsb' w lo 5
  rw [← h, BitVec.toNat_setWidth_of_le (by decide)]
  rfl

/-- Settles O5: each field by its offset and width. -/
theorem extractorIsShiftAndMask : Obligations.ExtractorIsShiftAndMask := by
  intro w
  have low (n : Nat) : (w.extractLsb' 0 n).setWidth 32 = w &&& (BitVec.allOnes n).setWidth 32 := by
    rw [setWidth_extractLsb', BitVec.ushiftRight_zero]
  exact ⟨setWidth_extractLsb' w 26 6, val_regOf_extractLsb' w 21, val_regOf_extractLsb' w 16,
    val_regOf_extractLsb' w 11, setWidth_extractLsb' w 6 5, low 6, low 16, low 26⟩

end Sys2Proof
end

section
/-! PROOFS. The formatter's spellings: the word line, decimal and hexadecimal numbers, and the dump (spec 40_datapath.md
R130 to R133, R136). -/

namespace Sys2Proof.Machine

/-- Settles O29: the word line written out, position by position. -/
theorem wordLineCharacters : Obligations.WordLineCharacters := by
  intro w
  rw [toList_grp4, grp4Chars_eq]
  refine ⟨rfl, fun k hk => ?_⟩
  interval_cases k <;> rfl

/-- The decimal spelling is the sign and the digits of the magnitude (R131). -/
theorem toList_dec (n : Int) :
    (dec n).toList = (if n < 0 then ['-'] else []) ++ Nat.toDigits 10 n.natAbs := by
  rw [dec]
  split_ifs <;> simp [Nat.repr_eq_ofList_toDigits]

/-- Settles O30: the digits of the magnitude, by the library's facts about them. -/
theorem decimalSpelling : Obligations.DecimalSpelling := by
  intro n
  have hdigit : ∀ c ∈ Nat.toDigits 10 n.natAbs, c.isDigit = true := fun c hc =>
    Nat.isDigit_of_mem_toDigits (by decide) (by decide) hc
  exact ⟨Nat.toDigits 10 n.natAbs, toList_dec n, Nat.toDigits_ne_nil, hdigit,
    Nat.ofDigitChars_toDigits (by decide) (by decide), toDigits_head_zero n.natAbs⟩

theorem length_hexDigits (k v : Nat) : (hexDigits k v).length = k := by
  induction k generalizing v with
  | zero => rfl
  | succ k ih => rw [hexDigits, List.length_append, ih, List.length_singleton]

theorem mem_hexDigits (k v : Nat) : ∀ c ∈ hexDigits k v, c ∈ "0123456789ABCDEF".toList := by
  induction k generalizing v with
  | zero => exact List.forall_mem_nil _
  | succ k ih =>
    rw [hexDigits, List.forall_mem_append, List.forall_mem_singleton]
    exact ⟨ih (v / 16), (idxOf_hexDigit (v % 16) (Nat.mod_lt v (by decide))).1⟩

/-- The `k` low digits read back in base 16 give a value that fits into them. -/
theorem foldl_hexDigits (k v : Nat) (h : v < 16 ^ k) :
    (hexDigits k v).foldl (fun n c => 16 * n + "0123456789ABCDEF".toList.idxOf c) 0 = v := by
  induction k generalizing v with
  | zero => rw [hexDigits, List.foldl_nil]; omega
  | succ k ih =>
    have hhigh : v / 16 < 16 ^ k := Nat.div_lt_of_lt_mul (by rwa [← Nat.pow_succ'])
    rw [hexDigits, List.foldl_append, ih (v / 16) hhigh, List.foldl_cons, List.foldl_nil,
      (idxOf_hexDigit (v % 16) (Nat.mod_lt v (by decide))).2, Nat.div_add_mod]

/-- Settles O31: two digits hold 6 bits and four hold 16. -/
theorem hexSpelling : Obligations.HexSpelling := by
  refine ⟨fun v => ?_, fun v => ?_⟩
  · rw [hex2, String.toList_ofList]
    exact ⟨length_hexDigits 2 v.toNat, mem_hexDigits 2 v.toNat, foldl_hexDigits 2 v.toNat (by omega)⟩
  · rw [hex4, String.toList_ofList]
    exact ⟨length_hexDigits 4 v.toNat, mem_hexDigits 4 v.toNat, foldl_hexDigits 4 v.toNat (by omega)⟩

/-- Settles O32: dump line `r`, written out at the four indices that `dumpIdx` gives it. -/
theorem dumpLayout : Obligations.DumpLayout := by
  intro names x
  refine ⟨length_dump names x, fun r i0 i1 i2 i3 h0 h1 h2 h3 => ?_⟩
  obtain rfl : i0 = dumpIdx r 0 := Fin.ext h0
  obtain rfl : i1 = dumpIdx r 1 := Fin.ext h1
  obtain rfl : i2 = dumpIdx r 2 := Fin.ext h2
  obtain rfl : i3 = dumpIdx r 3 := Fin.ext h3
  have hline : (dump names x)[r.val]? = some (dumpLine names x r) := by fin_cases r <;> rfl
  rw [hline]
  simp only [dumpLine, dumpPair, name, String.append_assoc]

end Sys2Proof.Machine
end

section
/-! PROOFS. The ALU, the write port and the branch comparator (spec 40_datapath.md R108, R110, R111, R113). -/

namespace Sys2Proof.Machine

/-- The ALU's difference is the exact difference modulo `2^32` (R108). -/
theorem toNat_alu_sub (a b : Word) :
    ((alu .sub a b).toNat : Int) = ((a.toNat : Int) - (b.toNat : Int)) % 2 ^ 32 := by
  rw [alu, BitVec.toNat_sub]
  omega

/-- The ALU's comparison is the number 1 or 0 (R108). -/
theorem toNat_alu_slt (a b : Word) : (alu .slt a b).toNat = if a.toInt < b.toInt then 1 else 0 := by
  rw [alu]
  split_ifs <;> rfl

/-- Settles O25: the five operations one by one. -/
theorem aluOperations : Obligations.AluOperations := fun a b =>
  ⟨BitVec.toNat_add a b, toNat_alu_sub a b, fun _ => BitVec.getLsbD_and, fun _ => BitVec.getLsbD_or,
    toNat_alu_slt a b⟩

/-- Settles O26: the register file's laws of reading after a write. -/
theorem writePortAcceptsEveryIndex : Obligations.WritePortAcceptsEveryIndex := by
  intro x wa wd
  rw [writePort_true, writePort_false]
  exact ⟨regFile_set_same wa wd x, fun j hj => regFile_set_other wa j wd x hj, rfl⟩

theorem taken_eq_iff (a b : Word) : taken .eq a b = true ↔ a = b := beq_iff_eq

/-- Settles O27: a pattern is determined by either reading of it, and a branch only reports. -/
theorem comparatorIsPatternEquality : Obligations.ComparatorIsPatternEquality := by
  refine ⟨fun a b => ⟨?_, ?_, rfl⟩, fun rs rt imm s => ?_⟩
  · rw [taken_eq_iff, BitVec.toInt_inj]
  · rw [taken_eq_iff, BitVec.toNat_inj]
  · obtain ⟨t, ht, hbeq⟩ := reportOnly_spec s (lineBranch s.regName "beq" rs rt imm (taken .eq s.x[rs] s.x[rt]))
    obtain ⟨u, hu, hbne⟩ := reportOnly_spec s (lineBranch s.regName "bne" rs rt imm (taken .ne s.x[rs] s.x[rt]))
    exact ⟨t, u, ht, hu, hbeq, hbne⟩

end Sys2Proof.Machine
end

section
/-! PROOFS. The R-type instructions: the words of a secondary-map row, and the R-type template (spec 30_encoding.md R70;
41_rtype.md R150 to R154). -/

namespace Sys2Proof.Machine

/-- A row of the secondary map: if its funct decodes to `ofFields` and that instruction's word carries the funct, the row
covers exactly the words read as `ofFields`. -/
theorem recognisedBy_functRow {ofFields : Fields → Instr} (fn : BitVec 6)
    (hdecode : ∀ f : Fields, decodeFunct { f with funct := fn } = .instr (ofFields f))
    (hencode : ∀ f : Fields, encode (ofFields f) = encodeR f.rs f.rt f.rd f.shamt fn) :
    RecognisedBy 0xFC00003F#32 (fn.setWidth 32) ofFields := by
  intro w
  constructor
  · intro hmask
    obtain ⟨hop, hfn⟩ := (opcode_funct_eq_iff_mask w fn).2 hmask
    rw [decode, decodeFields_of_opcode_eq_zero hop, ← hdecode (extract w), ← hfn]
  · intro hdec
    have hword : encode (ofFields (extract w)) = w := encodeOfDecodeIsTheWord w _ hdec
    rw [← Laws.EncodeMatches.encodeR_masked, ← hencode, hword]

/-- The R-type template completes and meets the frame of a write, with the ALU's result and the line opened by the
mnemonic and a space. -/
theorem rType_spec {mn opening : String} (hmn : mn ++ " " = opening) (op : AluOp) (rd rs rt : RegIdx) (s : State) :
    ∃ t, rType mn op rd rs rt s = .next t ∧
      WritesAndReports rd (alu op s.x[rs] s.x[rt])
        (opening ++ s.regName[rd] ++ ", " ++ s.regName[rs] ++ ", " ++ s.regName[rt]) s t := by
  rw [← hmn]
  exact writeAndReport_spec s rd (alu op s.x[rs] s.x[rt]) (lineR s.regName mn rd rs rt)

/-- Settles O8: the exact sum, narrowed, is the ALU's. -/
theorem addWritesWrappedSum : Obligations.AddWritesWrappedSum := by
  refine ⟨recognisedBy_functRow 0x20#6 (fun _ => rfl) fun _ => rfl, fun rd rs rt _ s => ?_⟩
  rw [ofInt_toInt_add]
  exact rType_spec (mn := "add") rfl .add rd rs rt s

/-- Settles O9: the exact difference, narrowed, is the ALU's. -/
theorem subWritesWrappedDifference : Obligations.SubWritesWrappedDifference := by
  refine ⟨recognisedBy_functRow 0x22#6 (fun _ => rfl) fun _ => rfl, fun rd rs rt _ s => ?_⟩
  rw [ofInt_toInt_sub]
  exact rType_spec (mn := "sub") rfl .sub rd rs rt s

/-- Settles O10: the template at the ALU's `and`. -/
theorem andWritesBitwiseAnd : Obligations.AndWritesBitwiseAnd :=
  ⟨recognisedBy_functRow 0x24#6 (fun _ => rfl) fun _ => rfl,
    fun rd rs rt _ s => rType_spec (mn := "and") rfl .and rd rs rt s⟩

/-- Settles O11: the template at the ALU's `or`. -/
theorem orWritesBitwiseOr : Obligations.OrWritesBitwiseOr :=
  ⟨recognisedBy_functRow 0x25#6 (fun _ => rfl) fun _ => rfl,
    fun rd rs rt _ s => rType_spec (mn := "or") rfl .or rd rs rt s⟩

/-- Settles O12: the template at the ALU's signed comparison. -/
theorem sltWritesSignedComparison : Obligations.SltWritesSignedComparison :=
  ⟨recognisedBy_functRow 0x2A#6 (fun _ => rfl) fun _ => rfl,
    fun rd rs rt _ s => rType_spec (mn := "slt") rfl .slt rd rs rt s⟩

end Sys2Proof.Machine
end

section
/-! PROOFS. The I-type arithmetic and logic instructions: the words of a primary-map row, and the four meanings (spec
30_encoding.md R69; 42_itype_alu.md R170 to R173). -/

namespace Sys2Proof.Machine

/-- A row of the primary map: if its opcode decodes to `ofFields` and that instruction's word carries the opcode, the row
covers exactly the words read as `ofFields`. -/
theorem recognisedBy_opcodeRow {ofFields : Fields → Instr} (op : BitVec 6)
    (hdecode : ∀ f : Fields, decodeFields { f with opcode := op } = .instr (ofFields f))
    (hencode : ∀ f : Fields, encode (ofFields f) = encodeI op f.rs f.rt f.imm) :
    RecognisedBy 0xFC000000#32 (op.setWidth 32 <<< 26) ofFields := by
  intro w
  constructor
  · intro hmask
    have hop : (extract w).opcode = op := (opcode_eq_iff_mask w op).2 hmask
    rw [decode, ← hdecode (extract w), ← hop]
  · intro hdec
    have hword : encode (ofFields (extract w)) = w := encodeOfDecodeIsTheWord w _ hdec
    rw [← Laws.EncodeMatches.encodeI_masked, ← hencode, hword]

/-- The logical I-type template completes and meets the frame of a write, with the ALU's result on the zero-extended
immediate and the line opened by the mnemonic and a space. -/
theorem iTypeLogic_spec {mn opening : String} (hmn : mn ++ " " = opening) (op : AluOp) (rt rs : RegIdx) (imm : Imm16)
    (s : State) :
    ∃ t, iTypeLogic mn op rt rs imm s = .next t ∧
      WritesAndReports rt (alu op s.x[rs] (BitVec.ofNat 32 imm.toNat))
        (opening ++ s.regName[rt] ++ ", " ++ s.regName[rs] ++ ", 0x" ++ hex4 imm) s t := by
  rw [← hmn, ← ext_zext_eq_ofNat]
  exact writeAndReport_spec s rt (alu op s.x[rs] (ext .zext imm)) (lineHex s.regName mn rt rs imm)

/-- Settles O13: the exact sum with the signed immediate, narrowed, is the ALU's with the sign-extended one. -/
theorem addiAddsSignedImmediate : Obligations.AddiAddsSignedImmediate := by
  refine ⟨recognisedBy_opcodeRow 0x08#6 (fun _ => rfl) fun _ => rfl, fun rt rs imm s => ?_⟩
  rw [← toInt_ext_sext imm, ofInt_toInt_add]
  exact writeAndReport_spec s rt (alu .add s.x[rs] (ext .sext imm)) (lineSigned s.regName "addi" rt rs imm)

/-- Settles O14: the template at the ALU's `and`. -/
theorem andiMasksWithZeroExtendedImmediate : Obligations.AndiMasksWithZeroExtendedImmediate :=
  ⟨recognisedBy_opcodeRow 0x0C#6 (fun _ => rfl) fun _ => rfl,
    fun rt rs imm s => iTypeLogic_spec (mn := "andi") rfl .and rt rs imm s⟩

/-- Settles O15: the template at the ALU's `or`. -/
theorem oriSetsZeroExtendedImmediate : Obligations.OriSetsZeroExtendedImmediate :=
  ⟨recognisedBy_opcodeRow 0x0D#6 (fun _ => rfl) fun _ => rfl,
    fun rt rs imm s => iTypeLogic_spec (mn := "ori") rfl .or rt rs imm s⟩

/-- Settles O16: the extender's `upper` output is the immediate times `2^16`, and the meaning reads no `rs`. -/
theorem luiPlacesImmediateInUpperHalf : Obligations.LuiPlacesImmediateInUpperHalf := by
  refine ⟨recognisedBy_opcodeRow 0x0F#6 (fun _ => rfl) fun _ => rfl, fun rt _ imm s => ?_⟩
  rw [← ext_upper_eq_ofNat]
  exact writeAndReport_spec s rt (ext .upper imm) (lineUpper s.regName "lui" rt imm)

end Sys2Proof.Machine
end

section
/-! PROOFS. The load and the store: the words of a primary-map row, and one meaning that only prints (spec 30_encoding.md
R69; 43_loadstore.md R190 and R191). -/

namespace Sys2Proof.Machine

/-- The print-only template completes and meets the frame of a report, with the immediate printed as a signed number and
the line opened by the mnemonic and a space. -/
theorem printOnly_spec {mn opening : String} (hmn : mn ++ " " = opening) (rt rs : RegIdx) (imm : Imm16) (s : State) :
    ∃ t, printOnly mn rt rs imm s = .next t ∧
      OnlyReports (opening ++ s.regName[rt] ++ ", " ++ dec imm.toInt ++ "(" ++ s.regName[rs] ++ ")") s t := by
  rw [← hmn, ← toInt_ext_sext imm]
  exact reportOnly_spec s (lineMem s.regName mn rt rs imm)

/-- Settles O17: `lw` is the print-only template, so nothing is loaded. -/
theorem lwOnlyPrints : Obligations.LwOnlyPrints :=
  ⟨recognisedBy_opcodeRow 0x23#6 (fun _ => rfl) fun _ => rfl,
    fun rt rs imm s => printOnly_spec (mn := "lw") rfl rt rs imm s⟩

/-- Settles O18: `sw` is the print-only template, so nothing is stored. -/
theorem swOnlyPrints : Obligations.SwOnlyPrints :=
  ⟨recognisedBy_opcodeRow 0x2B#6 (fun _ => rfl) fun _ => rfl,
    fun rt rs imm s => printOnly_spec (mn := "sw") rfl rt rs imm s⟩

end Sys2Proof.Machine
end

section
/-! PROOFS. The branches: the words of a primary-map row, and one meaning that reports the comparator's answer (spec
30_encoding.md R69; 44_branch.md R200 and R201). -/

namespace Sys2Proof.Machine

theorem taken_ne_iff (a b : Word) : taken .ne a b = true ↔ a ≠ b := bne_iff_ne

/-- The branch template completes and meets the frame of a report, with the line opened by the mnemonic and a space and
closed by the comparator's answer, given as any proposition equivalent to it. -/
theorem branchReport_spec {mn opening : String} (hmn : mn ++ " " = opening) (cmp : Cmp) (rs rt : RegIdx) (imm : Imm16)
    (s : State) {cond : Prop} [Decidable cond] (hcond : taken cmp s.x[rs] s.x[rt] = true ↔ cond) :
    ∃ t, branchReport mn cmp rs rt imm s = .next t ∧
      OnlyReports (opening ++ s.regName[rs] ++ ", " ++ s.regName[rt] ++ ", " ++ dec imm.toInt ++
        (if cond then " (branch taken)" else " (branch not taken)")) s t := by
  simp only [← hmn, ← toInt_ext_sext imm, ← hcond]
  exact reportOnly_spec s (lineBranch s.regName mn rs rt imm (taken cmp s.x[rs] s.x[rt]))

/-- Settles O19: `beq` is the branch template at the comparator's equality. -/
theorem beqReportsEquality : Obligations.BeqReportsEquality :=
  ⟨recognisedBy_opcodeRow 0x04#6 (fun _ => rfl) fun _ => rfl,
    fun rs rt imm s => branchReport_spec (mn := "beq") rfl .eq rs rt imm s (taken_eq_iff s.x[rs] s.x[rt])⟩

/-- Settles O20: `bne` is the branch template at the comparator's difference. -/
theorem bneReportsDifference : Obligations.BneReportsDifference :=
  ⟨recognisedBy_opcodeRow 0x05#6 (fun _ => rfl) fun _ => rfl,
    fun rs rt imm s => branchReport_spec (mn := "bne") rfl .ne rs rt imm s (taken_ne_iff s.x[rs] s.x[rt])⟩

end Sys2Proof.Machine
end

section
/-! PROOFS. The unrecognised words: the selectors outside the two maps, and a meaning that only reports (spec 30_encoding.md
R68, R72; 45_unrecognized.md R210 to R212). -/

namespace Sys2Proof.Machine

/-! ## Which words -/

/-- The funct field is in a list exactly when the masked word is in the list widened to words. -/
theorem funct_mem_iff_mask (w : Word) (fns : List (BitVec 6)) :
    w &&& 0x3F#32 ∈ fns.map (·.setWidth 32) ↔ (extract w).funct ∈ fns := by
  simp only [List.mem_map, eq_comm (b := w &&& 0x3F#32), funct_eq_iff_mask, exists_eq_right']

/-- The opcode field is in a list exactly when the shifted word is in the list widened to words. -/
theorem opcode_mem_iff_shift (w : Word) (ops : List (BitVec 6)) :
    w >>> 26 ∈ ops.map (·.setWidth 32) ↔ (extract w).opcode ∈ ops := by
  simp only [List.mem_map, eq_comm (b := w >>> 26), opcode_eq_iff_shift, exists_eq_right']

/-- The first level answers no unknown funct (R68, R72). -/
theorem decodeOpcode_ne_unknownFunct (f : Fields) (fn : BitVec 6) : decodeOpcode f ≠ .unknownFunct fn := by
  unfold decodeOpcode
  split_ifs <;> exact nofun

/-- A word is an unknown funct exactly when its opcode selects the secondary map and its funct is outside it (R210). -/
theorem decode_eq_unknownFunct_iff (w : Word) :
    decode w = .unknownFunct (extract w).funct ↔
      (extract w).opcode = 0#6 ∧ (extract w).funct ∉ recognisedFuncts := by
  constructor
  · intro h
    have hop : (extract w).opcode = 0#6 := by
      by_contra h0
      exact decodeOpcode_ne_unknownFunct _ _ ((decodeFields_of_opcode_ne_zero h0).symm.trans h)
    obtain ⟨i, hd, -⟩ | ⟨fn, hd, hfn⟩ | ⟨op, hd, -⟩ := decode_cases w <;> cases hd.symm.trans h
    exact ⟨hop, hfn⟩
  · rintro ⟨hop, hfn⟩
    exact (decodeFields_of_opcode_eq_zero hop).trans (decodeFunct_of_not_mem hfn)

/-- A word is an unknown opcode exactly when its opcode is outside the primary map (R211). -/
theorem decode_eq_unknownOpcode_iff (w : Word) :
    decode w = .unknownOpcode (extract w).opcode ↔ (extract w).opcode ∉ recognisedOpcodes := by
  constructor
  · intro h
    obtain ⟨i, hd, -⟩ | ⟨fn, hd, -⟩ | ⟨op, hd, hop⟩ := decode_cases w <;> cases hd.symm.trans h
    exact hop
  · intro hop
    have h0 : (extract w).opcode ≠ 0#6 := fun e => hop (e ▸ by decide)
    exact (decodeFields_of_opcode_ne_zero h0).trans (decodeOpcode_of_not_mem hop)

/-! ## What they do -/

/-- An outcome without mnemonic only reports (R212). -/
theorem execute_eq_reportOnly_of_mnemonic?_eq_none {d : Decoded} (h : d.mnemonic? = none) (s : State) :
    ∃ line, execute d s = reportOnly line s := by
  obtain ⟨i, dst, v, line, rfl, -, -⟩ | hreport := execute_cases s d
  · cases h
  · exact hreport

/-- Settles O21: the opcode and the funct as masked words, and a meaning that is the printing template. -/
theorem unknownFunctOnlyPrints : Obligations.UnknownFunctOnlyPrints := by
  refine ⟨fun w => ?_, fun funct s => reportOnly_spec s (lineUnknownFunct funct)⟩
  have hop : (extract w).opcode = 0#6 ↔ w &&& 0xFC000000#32 = 0#32 := opcode_eq_iff_mask w 0#6
  rw [decode_eq_unknownFunct_iff, hop, ← funct_mem_iff_mask]
  rfl

/-- Settles O22: the opcode as a shifted word, and a meaning that is the printing template. -/
theorem unknownOpcodeOnlyPrints : Obligations.UnknownOpcodeOnlyPrints := by
  refine ⟨fun w => ?_, fun opcode s => reportOnly_spec s (lineUnknownOpcode opcode)⟩
  rw [decode_eq_unknownOpcode_iff, ← opcode_mem_iff_shift]
  rfl

/-- Settles O45: between the word line and the dump such a word only reports, so the dump shows the registers as they
were. -/
theorem unrecognisedWordLeavesNoTrace : Obligations.UnrecognisedWordLeavesNoTrace := by
  intro s l rest w hs hc hnone
  obtain ⟨line, hrule⟩ :=
    execute_eq_reportOnly_of_mnemonic?_eq_none hnone (State.emit { s with host := rest } (grp4 w))
  refine ⟨_, line, (step_word hs hc).trans (stepWord_of_execute _ _ hrule), withDump_x _ _, withDump_host _ _, ?_⟩
  cases l.dumpEn <;> simp [withDump]

end Sys2Proof.Machine
end

section
/-! PROOFS. The host's reading of a line: its three verdicts, the bits of the word, and the block's own word line as an
input line (spec 60_exceptions.md R222, R225 to R228; 92_eei_decisions.md D19). -/

namespace Sys2Proof.Machine

/-! ## The three verdicts -/

/-- Every character of the line is `0`, `1` or whitespace (R226). -/
def validText (text : String) : Bool := text.toList.all fun c => isBit c || isSpace c

/-- The characters of the line that are not whitespace, in order (R225). -/
def digitsOf (text : String) : List Char := text.toList.filter fun c => !isSpace c

/-- A valid line's characters that are not whitespace are binary digits. -/
theorem isBit_of_mem_digitsOf {text : String} (hv : validText text = true) : ∀ c ∈ digitsOf text, isBit c = true := by
  intro c hc
  obtain ⟨hmem, hnot⟩ := List.mem_filter.1 hc
  have hspace : isSpace c = false := by simpa using hnot
  simpa [hspace] using List.all_eq_true.1 hv c hmem

theorem classify_eq_invalidCharacter_iff (text : String) :
    classify text = .invalidCharacter ↔ ¬ validText text = true := by
  rw [classify_eq, ← validText, ← digitsOf]
  split_ifs <;> simp [*]

theorem classify_eq_wrongBitCount_iff (text : String) :
    classify text = .wrongBitCount ↔ validText text = true ∧ (digitsOf text).length ≠ 32 := by
  rw [classify_eq, ← validText, ← digitsOf]
  split_ifs <;> simp [*]

theorem classify_eq_word_iff_ofNat (text : String) (w : Word) :
    classify text = .word w ↔
      validText text = true ∧ (digitsOf text).length = 32 ∧ BitVec.ofNat 32 (bitsToNat (digitsOf text)) = w := by
  rw [classify_eq, ← validText, ← digitsOf]
  split_ifs <;> simp [*]

/-! ## The word's bits -/

theorem bitChar_beq_one (b : Bool) : (bitChar b == '1') = b := by cases b <;> rfl

theorem bitChar_beq_one_of_isBit {c : Char} (h : isBit c = true) : bitChar (c == '1') = c := by
  obtain rfl | rfl := (isBit_iff c).1 h <;> rfl

/-- Bit `31 - k` of the word that 32 characters spell is whether the `k`-th of them is `1` (R225). -/
theorem getLsbD_ofNat_bitsToNat {cs : List Char} (hlen : cs.length = 32) {k : Nat} (hk : k < 32) :
    (BitVec.ofNat 32 (bitsToNat cs)).getLsbD (31 - k) = (cs[k] == '1') := by
  rw [BitVec.getLsbD_ofNat, decide_eq_true (show 31 - k < 32 by omega), Bool.true_and]
  simpa only [hlen] using bitsToNat_testBit cs k (hlen ▸ hk)

/-- The word that 32 binary digits spell is the one whose bits they are, the leftmost most significant (R225). -/
theorem ofNat_bitsToNat_eq_iff {cs : List Char} (hlen : cs.length = 32) (hbits : ∀ c ∈ cs, isBit c = true) (w : Word) :
    BitVec.ofNat 32 (bitsToNat cs) = w ↔ ∀ k, k < 32 → cs[k]? = some (bitChar (w.getLsbD (31 - k))) := by
  constructor
  · rintro rfl k hk
    rw [getLsbD_ofNat_bitsToNat hlen hk, bitChar_beq_one_of_isBit (hbits _ (List.getElem_mem _)),
      List.getElem?_eq_getElem]
  · intro h
    apply BitVec.eq_of_getLsbD_eq
    intro i hi
    obtain ⟨_, hdigit⟩ := List.getElem?_eq_some_iff.1 (h (31 - i) (by omega))
    have hspelt := getLsbD_ofNat_bitsToNat hlen (k := 31 - i) (by omega)
    rwa [hdigit, bitChar_beq_one, show 31 - (31 - i) = i by omega] at hspelt

/-- A line is a word exactly when it is valid and its digits are the word's 32 bits (R225). -/
theorem classify_eq_word_iff (text : String) (w : Word) :
    classify text = .word w ↔ validText text = true ∧ (digitsOf text).length = 32 ∧
      ∀ k, k < 32 → (digitsOf text)[k]? = some (bitChar (w.getLsbD (31 - k))) := by
  rw [classify_eq_word_iff_ofNat]
  refine and_congr_right fun hv => and_congr_right fun hlen => ?_
  exact ofNat_bitsToNat_eq_iff hlen (isBit_of_mem_digitsOf hv) w

/-! ## The characters spelt out -/

theorem validText_iff (text : String) :
    validText text = true ↔
      ∀ c ∈ text.toList, c = '0' ∨ c = '1' ∨ c ∈ [' ', '\t', '\n', '\x0b', '\x0c', '\r'] := by
  simp only [validText, List.all_eq_true, Bool.or_eq_true, isBit_iff, isSpace_iff, or_assoc]

theorem digitsOf_eq (text : String) :
    digitsOf text = text.toList.filter fun c => decide (c ∉ [' ', '\t', '\n', '\x0b', '\x0c', '\r']) := by
  refine List.filter_congr fun c _ => ?_
  rw [Bool.eq_iff_iff]
  simp only [Bool.not_eq_true', decide_eq_true_eq, ← isSpace_iff, Bool.not_eq_true]

/-- Settles O46: the three verdicts, over the characters spelt out. -/
theorem lineClassification : Obligations.LineClassification := by
  intro text blanks valid digits
  have hvalid : validText text = true ↔ valid := validText_iff text
  have hdigits : digitsOf text = digits := digitsOf_eq text
  rw [← hvalid, ← hdigits]
  exact ⟨classify_eq_invalidCharacter_iff text, classify_eq_wrongBitCount_iff text, classify_eq_word_iff text⟩

/-! ## The block's word line -/

theorem isSpace_bitChar (b : Bool) : isSpace (bitChar b) = false := by cases b <;> rfl

/-- The digits of a word line are the word's bits, the most significant first (R130). -/
theorem digitsOf_grp4 (w : Word) : digitsOf (grp4 w) = (List.range 32).map fun k => bitChar (w.getLsbD (31 - k)) := by
  have hspace : isSpace ' ' = true := rfl
  rw [digitsOf, toList_grp4, grp4Chars_eq]
  simp only [List.filter_cons, List.filter_nil, isSpace_bitChar, hspace, Bool.not_true, Bool.not_false, if_true,
    Bool.false_eq_true, if_false]
  rfl

theorem validText_grp4 (w : Word) : validText (grp4 w) = true := by
  rw [validText_iff, toList_grp4]
  intro c hc
  obtain rfl | rfl | rfl := mem_grp4Chars w c hc <;> decide

/-- Settles O47: a word line is valid, and its digits are the word's bits. -/
theorem wordLineIsAnInputLineForTheWord : Obligations.WordLineIsAnInputLineForTheWord := by
  intro w
  rw [classify_eq_word_iff, digitsOf_grp4]
  refine ⟨validText_grp4 w, by rw [List.length_map, List.length_range], fun k hk => ?_⟩
  rw [List.getElem?_map, List.getElem?_range hk, Option.map_some]

end Sys2Proof.Machine
end

section
/-! PROOFS. What a line can do to the machine: only an invalid character stops it, only a word changes a register, and the
first line with an invalid character ends the run (spec 60_exceptions.md R220, R221, R226, R227, R237). -/

namespace Sys2Proof.Machine

/-- Settles O48: the step is the handling of that line. -/
theorem wrongBitCountSkipsTheLine : Obligations.WrongBitCountSkipsTheLine :=
  fun s _ _ hs hc => (step_line s hs).trans (stepLine_skip _ hc)

/-- A line is fatal exactly when it holds one of the characters that are neither binary digits nor whitespace (R226). -/
theorem classify_eq_invalidCharacter_iff_exists (text : String) :
    classify text = .invalidCharacter ↔
      ∃ c ∈ text.toList, c ∉ ['0', '1', ' ', '\t', '\n', '\x0b', '\x0c', '\r'] := by
  rw [classify_eq_invalidCharacter_iff, validText_iff, not_forall]
  simp only [List.mem_cons (b := '0'), List.mem_cons (b := '1'), Classical.not_imp]

/-- Handling a line is never refused (R220). -/
theorem stepLine_ne_refused (l : HostLine) (s : State) (r : Refusal) : stepLine l s ≠ .refused r := by
  intro h
  by_cases hc : classify l.text = .invalidCharacter
  · cases (stepLine_fatal s hc).symm.trans h
  · obtain ⟨t, ht⟩ := stepLine_completes s hc
    cases ht.symm.trans h

/-- Settles O49: an idle step goes on, and handling a line stops only at an invalid character. -/
theorem onlyAnInvalidCharacterStopsTheMachine : Obligations.OnlyAnInvalidCharacterStopsTheMachine := by
  intro s
  cases hs : s.host with
  | nil => simp [step_idle s hs]
  | cons l rest =>
    rw [step_line s hs]
    refine ⟨stepLine_ne_refused l _, fun f => ?_⟩
    rw [stepLine_eq_fault, classify_eq_invalidCharacter_iff_exists]
    constructor
    · rintro ⟨hchar, hf⟩
      exact ⟨l, rest, rfl, hf, hchar⟩
    · rintro ⟨_, _, hcons, hf, hchar⟩
      cases hcons
      exact ⟨hchar, hf⟩

/-- A first line that is a word is presented to the block (R104). -/
theorem presented_of_word {s : State} {l : HostLine} {rest : List HostLine} {w : Word} (hs : s.host = l :: rest)
    (hc : classify l.text = .word w) : s.presented = some (w, l.dumpEn) := by
  simp [State.presented, hs, hc]

/-- Settles O50: a step that presents no word is idle or handles a line that is no word. -/
theorem onlyAWordChangesTheRegisters : Obligations.OnlyAWordChangesTheRegisters := by
  refine ⟨step_idle, fun s t hnone h => ?_⟩
  obtain ⟨-, rfl⟩ | ⟨l, rest, hs, hl⟩ := step_cases h
  · rfl
  · rw [stepLine_x hl]
    cases hc : classify l.text with
    | word w => cases (presented_of_word hs hc).symm.trans hnone
    | wrongBitCount => exact lineRegs_skip s.x hc
    | invalidCharacter => exact lineRegs_fatal s.x hc

/-- Settles O57: the earlier lines run as they do alone, the next step faults, and a fault ends every longer run. -/
theorem invalidCharacterEndsTheRun : Obligations.InvalidCharacterEndsTheRun := by
  intro s a b l k hvalid hfatal
  obtain ⟨t, ht⟩ := runSteps_completes a hvalid s
  have hearlier := runSteps_append_next ht (l :: b)
  have hstop : runSteps 1 { t with host := l :: b } = .fault (.invalidCharacter l.text) :=
    runSteps_succ_eq_fault.2 (.inl ((step_line _ rfl).trans (stepLine_fatal _ hfatal)))
  refine ⟨⟨t, ht, hearlier⟩, runSteps_add_of_fault ?_ k, Nat.succ_ne_zero _⟩
  exact (runSteps_add_of_next hearlier 1).trans hstop

end Sys2Proof.Machine
end

section
/-! PROOFS. A run with and without its skipped lines: two states that stand alike in the block stay alike (spec
40_datapath.md R103; 60_exceptions.md R227, R229). -/

namespace Sys2Proof.Machine

/-- Two states alike in the block: the same registers, names and emitted lines, whatever skip reports stand between these
and whatever lines are still to come. -/
def AlikeInBlock (s t : State) : Prop := s.x = t.x ∧ s.regName = t.regName ∧ s.textOut = t.textOut

/-- A skipped line leaves its state alike in the block (R227). -/
theorem alikeInBlock_of_stepLine_skip {l : HostLine} {s t : State} (hc : classify l.text = .wrongBitCount)
    (h : stepLine l s = .next t) : AlikeInBlock t s := by
  cases (stepLine_skip s hc).symm.trans h
  exact ⟨rfl, rfl, textOut_of_console_skipReport rfl⟩

/-- A word does the same to two states alike in the block: `blockStep` reads only their registers and names (R103). -/
theorem stepLine_word_alikeInBlock {l : HostLine} {w : Word} {s s' t : State} (hc : classify l.text = .word w)
    (hs : AlikeInBlock s s') (h : stepLine l s = .next t) : ∃ t', stepLine l s' = .next t' ∧ AlikeInBlock t t' := by
  obtain ⟨hx, hn, hout⟩ := hs
  cases ((stepLine_word s hc).trans (datapathRefinesInstructionRules w l.dumpEn s)).symm.trans h
  refine ⟨_, (stepLine_word s' hc).trans (datapathRefinesInstructionRules w l.dumpEn s'), ?_, hn, ?_⟩
  · rw [hx, hn]
  · calc _ = s.textOut ++ (blockStep s.regName s.x w l.dumpEn).2 := textOut_of_console_append rfl
      _ = s'.textOut ++ (blockStep s'.regName s'.x w l.dumpEn).2 := by rw [hx, hn, hout]
      _ = _ := (textOut_of_console_append rfl).symm

/-- The line is not one the host skips (R227). -/
def isNotSkipped (l : HostLine) : Bool := decide (classify l.text ≠ .wrongBitCount)

/-- From states alike in the block, a completed run and the run over its lines without the skipped ones end alike, by
induction on the lines. -/
theorem runSteps_filter_isNotSkipped (lines : List HostLine) {s s' t : State} (hs : AlikeInBlock s s')
    (h : runSteps lines.length { s with host := lines } = .next t) :
    ∃ t', runSteps (lines.filter isNotSkipped).length { s' with host := lines.filter isNotSkipped } = .next t' ∧
      AlikeInBlock t t' := by
  induction lines generalizing s s' with
  | nil => cases h; exact ⟨_, rfl, hs⟩
  | cons l rest ih =>
    obtain ⟨u, hu, hr⟩ := (runSteps_cons s t l rest).1 h
    obtain rfl : u.host = rest := stepLine_host l _ u hu
    cases hc : classify l.text with
    | word w =>
      have hkept : isNotSkipped l = true := by simp [isNotSkipped, hc]
      obtain ⟨u', hu', hualike⟩ := stepLine_word_alikeInBlock (s := { s with host := u.host })
        (s' := { s' with host := u.host.filter isNotSkipped }) hc hs hu
      obtain ⟨t', ht', htalike⟩ := ih hualike hr
      have hh : u'.host = u.host.filter isNotSkipped := stepLine_host l _ u' hu'
      rw [List.filter_cons_of_pos hkept]
      exact ⟨t', (runSteps_cons s' t' l _).2 ⟨u', hu', by simpa only [← hh] using ht'⟩, htalike⟩
    | wrongBitCount =>
      have hdropped : ¬ isNotSkipped l = true := by simp [isNotSkipped, hc]
      obtain ⟨hx, hn, hout⟩ := alikeInBlock_of_stepLine_skip hc hu
      obtain ⟨hx', hn', hout'⟩ := hs
      rw [List.filter_cons_of_neg hdropped]
      exact ih ⟨hx.trans hx', hn.trans hn', hout.trans hout'⟩ hr
    | invalidCharacter => cases (stepLine_fatal _ hc).symm.trans hu

/-- Settles O58: both runs start from one state, so they end alike in the block. -/
theorem skippedLinesLeaveNoTraceInTheBlock : Obligations.SkippedLinesLeaveNoTraceInTheBlock := by
  intro s t h
  obtain ⟨u, hu, hx, -, hout⟩ := runSteps_filter_isNotSkipped s.host (s' := s) ⟨rfl, rfl, rfl⟩ h
  exact ⟨u, hu, hx.symm, hout.symm⟩

end Sys2Proof.Machine
end

section
/-! PROOFS. The registers at reset, and one register as both sources and destination (spec 10_state.md R32;
70_reset_and_hazards.md R250, R251, R254). -/

namespace Sys2Proof.Machine

/-- Every register is 0 at reset (R32, R250). -/
theorem reset_x (i : RegIdx) : State.reset.x[i] = 0#32 := Vector.getElem_replicate i.isLt

/-- Settles O52: the reset state has no line to handle, so its step is an idle one. -/
theorem resetClearsEveryRegister : Obligations.ResetClearsEveryRegister :=
  ⟨reset_x, step_idle State.reset rfl⟩

/-- Settles O42: the template gives the ALU the old value on both sides. -/
theorem sourceReadsPrecedeTheWrite : Obligations.SourceReadsPrecedeTheWrite := by
  intro r shamt s
  obtain ⟨t, hadd, ht, -⟩ := rType_spec (mn := "add") rfl .add r r r s
  obtain ⟨u, hsub, hu, -⟩ := rType_spec (mn := "sub") rfl .sub r r r s
  refine ⟨t, u, hadd, hsub, ?_, ?_⟩
  · obtain ⟨sum, -⟩ := aluOperations s.x[r] s.x[r]
    rw [ht, sum, two_mul]
  · rw [hu, alu, BitVec.sub_self]

end Sys2Proof.Machine
end
